-- ==== Sys2Proof/Word.lean ====
section
/-! DEFINITION. The value types of the CHIP-8 core: bytes, 16-bit words and register numbers. -/

namespace Sys2Proof

/-- `u8` of R10: an unsigned 8-bit value. -/
abbrev Byte := BitVec 8

/-- `u16` of R10: an unsigned 16-bit value; also the instruction word of R70. -/
abbrev Word := BitVec 16

/-- The number of a general register, V0 to VF (R21). -/
abbrev Reg := Fin 16

/-- VF, register 15, the flags register (R22). -/
abbrev VF : Reg := 15

/-- V0, the register Bnnn adds (R118). -/
abbrev V0 : Reg := 0

end Sys2Proof
end

