-- ==== Sys2Proof/Config.lean ====
section
/-! DEFINITION. What is fixed for one machine and never changes while it runs (R6, R7): the default font,
and the free value the spec leaves open (the random byte of Cxkk). The other parameters of R7 are arguments:
MEM_INIT and FONT of CONSTRUCT, IPF of the driver's frame (Machine/Transactions.lean); TICK_HZ appears in no rule. -/

namespace Sys2Proof.Config

/-- The glyphs of digits 0 to 7 of R232's default table. -/
def fontLow : List Byte :=
  [0xF0, 0x90, 0x90, 0x90, 0xF0] ++ [0x20, 0x60, 0x20, 0x20, 0x70] ++
  [0xF0, 0x10, 0xF0, 0x80, 0xF0] ++ [0xF0, 0x10, 0xF0, 0x10, 0xF0] ++
  [0x90, 0x90, 0xF0, 0x10, 0x10] ++ [0xF0, 0x80, 0xF0, 0x10, 0xF0] ++
  [0xF0, 0x80, 0xF0, 0x90, 0xF0] ++ [0xF0, 0x10, 0x20, 0x40, 0x40]

/-- The glyphs of digits 8 to F of R232's default table. -/
def fontHigh : List Byte :=
  [0xF0, 0x90, 0xF0, 0x90, 0xF0] ++ [0xF0, 0x90, 0xF0, 0x10, 0xF0] ++
  [0xF0, 0x90, 0xF0, 0x90, 0x90] ++ [0xE0, 0x90, 0xE0, 0x90, 0xE0] ++
  [0xF0, 0x80, 0x80, 0x80, 0xF0] ++ [0xE0, 0x90, 0x90, 0x90, 0xE0] ++
  [0xF0, 0x80, 0xF0, 0x80, 0xF0] ++ [0xF0, 0x80, 0xF0, 0x80, 0x80]

/-- The default of the parameter `FONT`: the byte at address `a`, 0 to 79 (R232).
PRESUMED, unsafe: the source gives no font bytes (D14); log entry 2. -/
def font (a : Nat) : Byte := (fontLow ++ fontHigh).getD a 0

/-- The parameter `RNG` of R7: the byte the `k`-th Cxkk of a run draws.
It has no body: any byte, with no law between draws (R143, R219, D17); log entry 3. -/
opaque randomByte : Nat → Byte

end Sys2Proof.Config
end

