-- ==== Sys2Proof/WellFormed.lean ====
section
/-! DEFINITION. When an instruction term stands for a word: its address fits the 12-bit field `nnn` and its row count
the 4-bit field `n` (R71). Register numbers and immediate bytes are in range by their types. -/

namespace Sys2Proof

/-- The check of the two operands whose type is wider than their field (R71). -/
def Instr.wf : Instr → Bool
  | .jp nnn | .call nnn | .ldI nnn | .jpV0 nnn => nnn < 4096
  | .drw _ _ n => n < 16
  | .cls | .ret => true
  | .seImm _ _ | .sneImm _ _ | .ldImm _ _ | .addImm _ _ | .rnd _ _ => true
  | .seReg _ _ | .sneReg _ _ | .ldReg _ _ | .orReg _ _ | .andReg _ _ | .xorReg _ _ => true
  | .addReg _ _ | .sub _ _ | .shr _ _ | .subn _ _ | .shl _ _ => true
  | .skp _ | .sknp _ | .ldVxDt _ | .ldVxK _ | .ldDtVx _ | .ldStVx _ => true
  | .addI _ | .ldF _ | .ldB _ | .ldStore _ | .ldLoad _ => true

/-- An instruction whose operands fit their fields. -/
abbrev WellFormed (i : Instr) : Prop := i.wf = true

end Sys2Proof
end

