-- ==== Sys2Proof/Decode.lean ====
section
/-! DEFINITION. The fields of an instruction word (R15, R71), the decoder (R73 to R79, total on every word), the
encoder, and the opcode map of R74 as a table of masks and matches. -/

namespace Sys2Proof

/-! ## Fields -/

/-- `t = op[15:12]`, the group. -/
def fieldT (op : Word) : Nat := op.toNat / 4096

/-- `x = op[11:8]`, the first register number. -/
def fieldX (op : Word) : Reg := Fin.ofNat 16 (op.toNat / 256)

/-- `y = op[7:4]`, the second register number. -/
def fieldY (op : Word) : Reg := Fin.ofNat 16 (op.toNat / 16)

/-- `n = op[3:0]`, the sub-opcode of groups 5, 8 and 9 and the row count of Dxyn. -/
def fieldN (op : Word) : Nat := op.toNat % 16

/-- `kk = op[7:0]`, the immediate byte and the sub-opcode of groups E and F. -/
def fieldKK (op : Word) : Byte := BitVec.ofNat 8 op.toNat

/-- `nnn = op[11:0]`, the address. -/
def fieldNNN (op : Word) : Nat := op.toNat % 4096

/-- The big-endian word of two bytes: the high byte stands at the lower address (R54, R55). -/
def wordOfBytes (hi lo : Byte) : Word := BitVec.ofNat 16 (hi.toNat * 256 + lo.toNat)

/-- The byte of a word that stands at the lower address (R55). -/
def highByte (op : Word) : Byte := BitVec.ofNat 8 (op.toNat / 256)

/-- The byte of a word that stands at the higher address (R55). -/
def lowByte (op : Word) : Byte := BitVec.ofNat 8 op.toNat

/-! ## The decoder -/

/-- Why the decoder gives no instruction. -/
inductive Reject where
  /-- Fewer than two bytes are left; an instruction is always two bytes (R70). -/
  | truncated
  /-- The word matches no row of the opcode map (R80). -/
  | unknownOpcode (op : Word)
  deriving DecidableEq, Repr

/-- Group 0: only the exact words 00E0 and 00EE are instructions (R75). -/
def decodeGroup0 (op : Word) : Except Reject Instr :=
  if op = 0x00E0 then .ok .cls
  else if op = 0x00EE then .ok .ret
  else .error (.unknownOpcode op)

/-- Group 5: the low nibble must be 0 (R76). -/
def decodeGroup5 (op : Word) : Except Reject Instr :=
  if fieldN op = 0 then .ok (.seReg (fieldX op) (fieldY op)) else .error (.unknownOpcode op)

/-- Group 8: the sub-selector is `n` (R77). -/
def decodeGroup8 (op : Word) : Except Reject Instr :=
  match fieldN op with
  | 0x0 => .ok (.ldReg (fieldX op) (fieldY op))
  | 0x1 => .ok (.orReg (fieldX op) (fieldY op))
  | 0x2 => .ok (.andReg (fieldX op) (fieldY op))
  | 0x3 => .ok (.xorReg (fieldX op) (fieldY op))
  | 0x4 => .ok (.addReg (fieldX op) (fieldY op))
  | 0x5 => .ok (.sub (fieldX op) (fieldY op))
  | 0x6 => .ok (.shr (fieldX op) (fieldY op))
  | 0x7 => .ok (.subn (fieldX op) (fieldY op))
  | 0xE => .ok (.shl (fieldX op) (fieldY op))
  | _ => .error (.unknownOpcode op)

/-- Group 9: the low nibble must be 0 (R76). -/
def decodeGroup9 (op : Word) : Except Reject Instr :=
  if fieldN op = 0 then .ok (.sneReg (fieldX op) (fieldY op)) else .error (.unknownOpcode op)

/-- Group E: the sub-selector is `kk` (R78). -/
def decodeGroupE (op : Word) : Except Reject Instr :=
  if fieldKK op = 0x9E then .ok (.skp (fieldX op))
  else if fieldKK op = 0xA1 then .ok (.sknp (fieldX op))
  else .error (.unknownOpcode op)

/-- Group F: the sub-selector is `kk` (R79). -/
def decodeGroupF (op : Word) : Except Reject Instr :=
  if fieldKK op = 0x07 then .ok (.ldVxDt (fieldX op))
  else if fieldKK op = 0x0A then .ok (.ldVxK (fieldX op))
  else if fieldKK op = 0x15 then .ok (.ldDtVx (fieldX op))
  else if fieldKK op = 0x18 then .ok (.ldStVx (fieldX op))
  else if fieldKK op = 0x1E then .ok (.addI (fieldX op))
  else if fieldKK op = 0x29 then .ok (.ldF (fieldX op))
  else if fieldKK op = 0x33 then .ok (.ldB (fieldX op))
  else if fieldKK op = 0x55 then .ok (.ldStore (fieldX op))
  else if fieldKK op = 0x65 then .ok (.ldLoad (fieldX op))
  else .error (.unknownOpcode op)

/-- The instruction a word stands for, selected by the group and then its sub-selector (R74).
The decoder is a pure function of the word (R73). -/
def decode (op : Word) : Except Reject Instr :=
  match fieldT op with
  | 0x0 => decodeGroup0 op
  | 0x1 => .ok (.jp (fieldNNN op))
  | 0x2 => .ok (.call (fieldNNN op))
  | 0x3 => .ok (.seImm (fieldX op) (fieldKK op))
  | 0x4 => .ok (.sneImm (fieldX op) (fieldKK op))
  | 0x5 => decodeGroup5 op
  | 0x6 => .ok (.ldImm (fieldX op) (fieldKK op))
  | 0x7 => .ok (.addImm (fieldX op) (fieldKK op))
  | 0x8 => decodeGroup8 op
  | 0x9 => decodeGroup9 op
  | 0xA => .ok (.ldI (fieldNNN op))
  | 0xB => .ok (.jpV0 (fieldNNN op))
  | 0xC => .ok (.rnd (fieldX op) (fieldKK op))
  | 0xD => .ok (.drw (fieldX op) (fieldY op) (fieldN op))
  | 0xE => decodeGroupE op
  | _ => decodeGroupF op

/-- The instruction at the front of a list of bytes, with the bytes after it (R70: always two bytes). -/
def decodeBytes : List Byte → Except Reject (Instr × List Byte)
  | hi :: lo :: rest =>
    match decode (wordOfBytes hi lo) with
    | .ok i => .ok (i, rest)
    | .error e => .error e
  | _ => .error .truncated

/-- The instruction the decoder reads from the `nbits` low bits of `w`, every bit above them zero; the word's bytes are
given to the decoder as memory holds them (R55). -/
def decodeTableWord (nbits w : Nat) : Option Instr :=
  match decodeBytes [highByte (BitVec.ofNat 16 (w % 2 ^ nbits)), lowByte (BitVec.ofNat 16 (w % 2 ^ nbits))] with
  | .ok (i, _) => some i
  | .error _ => none

/-! ## The encoder -/

/-- A word of a group with the 12-bit field `nnn`. -/
def wordNNN (t nnn : Nat) : Word := BitVec.ofNat 16 (t * 4096 + nnn)

/-- A word of a group with the fields `x` and `kk`. -/
def wordXKK (t : Nat) (x : Reg) (kk : Byte) : Word := BitVec.ofNat 16 (t * 4096 + x.val * 256 + kk.toNat)

/-- A word of a group with the fields `x`, `y` and `n`. -/
def wordXYN (t : Nat) (x y : Reg) (n : Nat) : Word :=
  BitVec.ofNat 16 (t * 4096 + x.val * 256 + y.val * 16 + n)

/-- The word of an instruction, from the patterns of R74. -/
def encode : Instr → Word
  | .cls => 0x00E0
  | .ret => 0x00EE
  | .jp nnn => wordNNN 0x1 nnn
  | .call nnn => wordNNN 0x2 nnn
  | .seImm x kk => wordXKK 0x3 x kk
  | .sneImm x kk => wordXKK 0x4 x kk
  | .seReg x y => wordXYN 0x5 x y 0x0
  | .ldImm x kk => wordXKK 0x6 x kk
  | .addImm x kk => wordXKK 0x7 x kk
  | .ldReg x y => wordXYN 0x8 x y 0x0
  | .orReg x y => wordXYN 0x8 x y 0x1
  | .andReg x y => wordXYN 0x8 x y 0x2
  | .xorReg x y => wordXYN 0x8 x y 0x3
  | .addReg x y => wordXYN 0x8 x y 0x4
  | .sub x y => wordXYN 0x8 x y 0x5
  | .shr x y => wordXYN 0x8 x y 0x6
  | .subn x y => wordXYN 0x8 x y 0x7
  | .shl x y => wordXYN 0x8 x y 0xE
  | .sneReg x y => wordXYN 0x9 x y 0x0
  | .ldI nnn => wordNNN 0xA nnn
  | .jpV0 nnn => wordNNN 0xB nnn
  | .rnd x kk => wordXKK 0xC x kk
  | .drw x y n => wordXYN 0xD x y n
  | .skp x => wordXKK 0xE x 0x9E
  | .sknp x => wordXKK 0xE x 0xA1
  | .ldVxDt x => wordXKK 0xF x 0x07
  | .ldVxK x => wordXKK 0xF x 0x0A
  | .ldDtVx x => wordXKK 0xF x 0x15
  | .ldStVx x => wordXKK 0xF x 0x18
  | .addI x => wordXKK 0xF x 0x1E
  | .ldF x => wordXKK 0xF x 0x29
  | .ldB x => wordXKK 0xF x 0x33
  | .ldStore x => wordXKK 0xF x 0x55
  | .ldLoad x => wordXKK 0xF x 0x65

/-! ## The opcode map as a table -/

/-- One row of the opcode map: a word selects it iff its bits under `mask` are `bits` (R74). -/
structure Row where
  mask : Word
  bits : Word
  deriving DecidableEq, Repr

/-- The test of R74: `(op AND mask) == match`. -/
def Row.selects (r : Row) (op : Word) : Bool := op &&& r.mask == r.bits

/-- The row an instruction belongs to, with the mask and match that R74's map gives it. -/
def Instr.row : Instr → Row
  | .cls => ⟨0xFFFF, 0x00E0⟩
  | .ret => ⟨0xFFFF, 0x00EE⟩
  | .jp _ => ⟨0xF000, 0x1000⟩
  | .call _ => ⟨0xF000, 0x2000⟩
  | .seImm _ _ => ⟨0xF000, 0x3000⟩
  | .sneImm _ _ => ⟨0xF000, 0x4000⟩
  | .seReg _ _ => ⟨0xF00F, 0x5000⟩
  | .ldImm _ _ => ⟨0xF000, 0x6000⟩
  | .addImm _ _ => ⟨0xF000, 0x7000⟩
  | .ldReg _ _ => ⟨0xF00F, 0x8000⟩
  | .orReg _ _ => ⟨0xF00F, 0x8001⟩
  | .andReg _ _ => ⟨0xF00F, 0x8002⟩
  | .xorReg _ _ => ⟨0xF00F, 0x8003⟩
  | .addReg _ _ => ⟨0xF00F, 0x8004⟩
  | .sub _ _ => ⟨0xF00F, 0x8005⟩
  | .shr _ _ => ⟨0xF00F, 0x8006⟩
  | .subn _ _ => ⟨0xF00F, 0x8007⟩
  | .shl _ _ => ⟨0xF00F, 0x800E⟩
  | .sneReg _ _ => ⟨0xF00F, 0x9000⟩
  | .ldI _ => ⟨0xF000, 0xA000⟩
  | .jpV0 _ => ⟨0xF000, 0xB000⟩
  | .rnd _ _ => ⟨0xF000, 0xC000⟩
  | .drw _ _ _ => ⟨0xF000, 0xD000⟩
  | .skp _ => ⟨0xF0FF, 0xE09E⟩
  | .sknp _ => ⟨0xF0FF, 0xE0A1⟩
  | .ldVxDt _ => ⟨0xF0FF, 0xF007⟩
  | .ldVxK _ => ⟨0xF0FF, 0xF00A⟩
  | .ldDtVx _ => ⟨0xF0FF, 0xF015⟩
  | .ldStVx _ => ⟨0xF0FF, 0xF018⟩
  | .addI _ => ⟨0xF0FF, 0xF01E⟩
  | .ldF _ => ⟨0xF0FF, 0xF029⟩
  | .ldB _ => ⟨0xF0FF, 0xF033⟩
  | .ldStore _ => ⟨0xF0FF, 0xF055⟩
  | .ldLoad _ => ⟨0xF0FF, 0xF065⟩

/-- One instruction of each row, in the order of R74's map, every operand zero. -/
def rowInstrs : List Instr :=
  [.cls, .ret, .jp 0, .call 0, .seImm 0 0, .sneImm 0 0, .seReg 0 0, .ldImm 0 0, .addImm 0 0, .ldReg 0 0] ++
  [.orReg 0 0, .andReg 0 0, .xorReg 0 0, .addReg 0 0, .sub 0 0, .shr 0 0, .subn 0 0, .shl 0 0, .sneReg 0 0] ++
  [.ldI 0, .jpV0 0, .rnd 0 0, .drw 0 0 0, .skp 0, .sknp 0, .ldVxDt 0, .ldVxK 0, .ldDtVx 0, .ldStVx 0] ++
  [.addI 0, .ldF 0, .ldB 0, .ldStore 0, .ldLoad 0]

/-- The 34 rows of R74's map. -/
def opcodeTable : List Row := rowInstrs.map Instr.row

end Sys2Proof
end

