-- ==== Sys2Proof/Machine/State.lean ====
section
/-! DEFINITION. The state of the CHIP-8 core (R20), the reasons a transaction can be turned away, and the state after
reset (R230). Nothing here computes: the operations are in Memory.lean, Operands.lean, Flags.lean and Ops.lean. -/

namespace Sys2Proof.Machine

/-- The kinds of runtime error (R201). -/
inductive FaultKind where
  /-- A fetch whose second byte lies above address 4095 (R202). -/
  | fetchBounds
  /-- 2nnn with sixteen return addresses on the stack (R204). -/
  | stackOverflow
  /-- 00EE with an empty stack (R205). -/
  | stackUnderflow
  /-- A data address above 4095 in Dxyn, Fx33, Fx55 or Fx65 (R203). -/
  | memBounds
  /-- An Fx1E sum that does not fit 16 bits (R206). -/
  | indexWrap
  /-- A key index above 15 in Ex9E or ExA1 (R208). -/
  | keyRange
  deriving DecidableEq, Repr

/-- The code of a fault kind (R201). -/
def FaultKind.code : FaultKind → Nat
  | .fetchBounds => 1
  | .stackOverflow => 2
  | .stackUnderflow => 3
  | .memBounds => 4
  | .indexWrap => 5
  | .keyRange => 6

/-- The record a faulting STEP leaves (R34). -/
structure FaultRecord where
  kind : FaultKind
  /-- The address of the faulting instruction. -/
  pc : Word
  /-- Its word; none for a fetch fault. -/
  opcode : Option Word
  /-- The value R201 names for the kind. -/
  info : Nat
  deriving DecidableEq, Repr

/-- Memory as address and byte pairs, addresses strictly rising, no entry equal to what an unlisted address reads as
(Machine/Memory.lean). -/
abbrev Memory := List Host.Cell

/-- The display buffer: 32 rows of 64 cells, true meaning lit; `disp[px + py*64]` of R31 is row `py`, column `px`. -/
abbrev Display := Vector (Vector Bool 64) 32

/-- The architectural state of R20, and one field of the model's own (`draws`). -/
structure State where
  /-- The general registers V0 to VF (R21). -/
  V : Vector Byte 16
  /-- The index register (R23). -/
  I : Word
  /-- The program counter (R24). -/
  pc : Word
  /-- The count of return addresses on the call stack, 0 to 16 (R26). -/
  sp : Fin 17
  /-- The return-address entries (R27). -/
  stack : Vector Word 16
  /-- The delay timer (R28). -/
  DT : Byte
  /-- The sound timer (R29). -/
  ST : Byte
  /-- The 4096-byte memory (R30). -/
  mem : Memory
  /-- The display buffer (R31). -/
  disp : Display
  /-- The keys, true meaning pressed (R33). -/
  key : Vector Bool 16
  /-- The key Fx0A latched (R32). -/
  wait : Option (Fin 16)
  /-- The fault record (R34). -/
  fault : Option FaultRecord
  /-- The MODEL's own field: how many random bytes Cxkk has drawn, the argument of the free value
  `Config.randomByte` (DESIGN CHOICE, safe; log entry 3). -/
  draws : Nat
  deriving DecidableEq, Repr

/-- Why the machine would stop in a way the spec does not describe. There is no such reason: every runtime error of
the spec is a NEXT state that holds a fault record (R200, R207), so no meaning, no step and no transaction answers
a fault of this type. Safe: nothing is cut short. -/
inductive Fault where
  deriving DecidableEq, Repr

/-- Why the model gives no next state. -/
inductive Refusal where
  /-- An instruction without a meaning; no arm of exec answers it. Safe: nothing can be proved of such a run. -/
  | notModelled (mnemonic : String)
  /-- KEY with an index above 15, outside the host's contract (R223, D22). Raised by the KEY transaction alone. Safe:
  the spec gives it no meaning. -/
  | keyIndexOutOfRange
  /-- CONSTRUCT with an image longer than 3584 bytes, `LOAD_TOO_LARGE` (R224, R230). Raised by the CONSTRUCT
  transaction alone. Safe: the spec builds no state. -/
  | loadTooLarge
  deriving DecidableEq, Repr

/-- The outcome of a meaning. -/
abbrev Result := Host.Outcome State Fault Refusal

/-- The machine right after CONSTRUCT with an empty image, the default font and MEM_INIT zero (R20, R230): memory
lists nothing. The fill is a DESIGN CHOICE (log entry 1) and the font PRESUMED (log entry 2), both unsafe. -/
def State.reset : State where
  V := Vector.replicate 16 0
  I := 0
  pc := 0x200
  sp := 0
  stack := Vector.replicate 16 0
  DT := 0
  ST := 0
  mem := []
  disp := Vector.replicate 32 (Vector.replicate 64 false)
  key := Vector.replicate 16 false
  wait := none
  fault := none
  draws := 0

end Sys2Proof.Machine
end

