-- ==== Sys2Proof/Machine/Memory.lean ====
section
/-! DEFINITION. The 4096-byte memory (R30, R50): what an unlisted address reads as, reading and writing one byte, and the
canonical form. Addresses are checked by the instructions before they reach these (R12, R58). -/

namespace Sys2Proof.Machine.Memory

/-- What an address that no entry lists reads as: the font at 0 to 79 (R51, R232; PRESUMED, log entry 2) and
elsewhere zero, the fill MEM_INIT of State.reset (DESIGN CHOICE, unsafe; log entry 1). -/
def unlisted (a : Nat) : Byte := if a < 80 then Config.font a else 0

/-- `MemRead(a, 1)` of R12. -/
def read : Memory → Nat → Byte
  | [], a => unlisted a
  | (b, v) :: m, a => if a = b then v else read m a

/-- The list with the entry `(a, v)` in front, or without one where `v` is what `a` reads as unlisted. -/
def consCell (a : Nat) (v : Byte) (m : Memory) : Memory :=
  if v = unlisted a then m else (a, v) :: m

/-- `MemWrite(a, 1, v)` of R12, keeping the canonical form. -/
def write : Memory → Nat → Byte → Memory
  | [], a, v => consCell a v []
  | (b, w) :: m, a, v =>
    if a < b then consCell a v ((b, w) :: m)
    else if a = b then consCell a v m
    else (b, w) :: write m a v

/-- The bytes of a list, written at rising addresses from `base` (R55). -/
def writeMany (m : Memory) (base : Nat) : List Byte → Memory
  | [] => m
  | v :: vs => writeMany (m.write base v) (base + 1) vs

/-- The memory whose byte at each address `a` of the address space is `f a`. -/
def ofBytes (f : Nat → Byte) : Memory :=
  (List.range 4096).foldr (fun a m => consCell a (f a) m) []

/-- Every entry stands at an address from `lo` to 4095, addresses strictly rise, and no entry is redundant. -/
def wfFrom (lo : Nat) : Memory → Bool
  | [] => true
  | (a, v) :: m => lo ≤ a && a < 4096 && v != unlisted a && wfFrom (a + 1) m

/-- The canonical form of memory. -/
def wf (m : Memory) : Bool := wfFrom 0 m

end Sys2Proof.Machine.Memory
end

