-- ==== Sys2Proof/Machine/Operands.lean ====
section
/-! DEFINITION. The operands of instructions: the general registers, the index register as an address, the addresses
an instruction carries, the keys a register names and the cells of the display. -/

namespace Sys2Proof.Machine

/-- `V[r]` (R21). -/
def State.reg (s : State) (r : Reg) : Byte := s.V[r.val]

/-- `V[r] <- v` (R21): sixteen registers, none hard-wired. -/
def State.setReg (s : State) (r : Reg) (v : Byte) : State := { s with V := s.V.set r.val v }

/-- The address `nnn` zero-extended to 16 bits (R72). -/
def zextAddr (nnn : Nat) : Word := BitVec.ofNat 16 nnn

/-- A byte zero-extended to 16 bits (R10). -/
def zextByte (b : Byte) : Word := BitVec.ofNat 16 b.toNat

/-- The number of the key a register's value names, where it is one of the sixteen (R170). -/
def keyIndex (b : Byte) : Option (Fin 16) := if h : b.toNat < 16 then some ⟨b.toNat, h⟩ else none

/-- `key[k]` (R33). -/
def State.pressed (s : State) (k : Fin 16) : Bool := s.key[k.val]

/-- The lowest pressed key (R174). -/
def State.firstPressed (s : State) : Option (Fin 16) := (List.finRange 16).find? s.pressed

/-- The display cell of column `px` and row `py`, `disp[px + py*64]` (R31); a place off the screen is no cell. -/
def State.cell (s : State) (px py : Nat) : Bool :=
  if h : py < 32 ∧ px < 64 then s.disp[py][px] else false

/-- The display with the cell of column `px` and row `py` set to `b` (R31). -/
def State.setCell (s : State) (px py : Nat) (b : Bool) : State :=
  if h : py < 32 ∧ px < 64 then { s with disp := s.disp.set py (s.disp[py].set px b) } else s

end Sys2Proof.Machine
end

