-- ==== Sys2Proof/Machine/Flags.lean ====
section
/-! DEFINITION. The flags an instruction writes to VF (R22, R131): carry, not-borrow, the bit shifted out. Collision
(R101) is written cell by cell in Machine/Display.lean. -/

namespace Sys2Proof.Machine

/-- A flag as the byte VF holds: 1 or 0 (R131). -/
def flagByte (b : Bool) : Byte := if b then 1 else 0

/-- `VF <- b ? 1 : 0`. -/
def State.setFlag (s : State) (b : Bool) : State := s.setReg VF (flagByte b)

/-- Carry of 8xy4: the unsigned sum exceeds 255 (R138). -/
def carryOut (a b : Byte) : Bool := a.toNat + b.toNat > 255

/-- Not-borrow of 8xy5 and 8xy7: the minuend is strictly greater (R139, R141). -/
def notBorrow (minuend subtrahend : Byte) : Bool := minuend.toNat > subtrahend.toNat

/-- The bit 8xy6 shifts out, bit 0 (R140). -/
def shiftedOutRight (a : Byte) : Bool := a.getLsbD 0

/-- The bit 8xyE shifts out, bit 7 (R142). -/
def shiftedOutLeft (a : Byte) : Bool := a.getLsbD 7

end Sys2Proof.Machine
end

