-- ==== Sys2Proof/Machine/Ops.lean ====
section
/-! DEFINITION. The shared operations of the step: fetch, moving and replacing pc, the call stack, the address check of
data accesses, the loop of the pseudocode, and raising a fault. -/

namespace Sys2Proof.Machine

/-! ## One field at a time -/

/-- `I <- w` (R23). -/
def State.setI (s : State) (w : Word) : State := { s with I := w }

/-- `pc <- w` (R24). -/
def State.setPc (s : State) (w : Word) : State := { s with pc := w }

/-- `DT <- b` (R28). -/
def State.setDT (s : State) (b : Byte) : State := { s with DT := b }

/-- `ST <- b` (R29). -/
def State.setST (s : State) (b : Byte) : State := { s with ST := b }

/-- `wait <- w` (R32). -/
def State.setWait (s : State) (w : Option (Fin 16)) : State := { s with wait := w }

/-- `mem[a] <- v` (R12). -/
def State.setByte (s : State) (a : Nat) (v : Byte) : State := { s with mem := s.mem.write a v }

/-- Every display cell set to false (R100). -/
def State.clearDisplay (s : State) : State :=
  { s with disp := Vector.replicate 32 (Vector.replicate 64 false) }

/-- The byte the next Cxkk draws (R219): a free value; log entry 3. -/
def State.nextDraw (s : State) : Byte := Config.randomByte s.draws

/-- The state after a draw. -/
def State.countDraw (s : State) : State := { s with draws := s.draws + 1 }

/-! ## Fetch and pc -/

/-- The word at `[pc, pc+1]`, big-endian, where both bytes lie in memory (R54); pc may be odd (R56). -/
def fetch (s : State) : Option Word :=
  if s.pc.toNat + 1 > 4095 then none
  else some (wordOfBytes (s.mem.read s.pc.toNat) (s.mem.read (s.pc.toNat + 1)))

/-- `pc <- (pc + 2) mod 65536`: the fetch's advance (R83), and a skip (R16). -/
def State.advance (s : State) : State := s.setPc (s.pc + 2)

/-- `pc <- (pc - 2) mod 65536`: Fx0A executes again at the next STEP (R174). -/
def State.regress (s : State) : State := s.setPc (s.pc - 2)

/-- Skip the next instruction if `c` holds; the skipped word is not looked at (R16). -/
def State.skipIf (s : State) (c : Bool) : State := if c then s.advance else s

/-- A word stored big-endian at an address (R55). -/
def State.storeWord (s : State) (a : Nat) (w : Word) : State :=
  (s.setByte a (highByte w)).setByte (a + 1) (lowByte w)

/-! ## The call stack -/

/-- `stack[sp] <- a; sp <- sp + 1`, where the stack is not full (R113). -/
def pushReturn (a : Word) (s : State) : Option State :=
  if h : s.sp.val < 16 then
    some { s with stack := s.stack.set s.sp.val a, sp := ⟨s.sp.val + 1, by omega⟩ }
  else none

/-- `sp <- sp - 1; pc <- stack[sp]`, where the stack is not empty (R111); the entry stays (D15). -/
def popReturn (s : State) : Option State :=
  if h : 0 < s.sp.val then
    some { s with sp := ⟨s.sp.val - 1, by omega⟩, pc := s.stack[s.sp.val - 1] }
  else none

/-! ## Data addresses -/

/-- The lowest address above 4095 among the `len` addresses from `base`, if there is one (R58, R150). Addresses are
unbounded integers: they do not wrap. -/
def firstOutside (base len : Nat) : Option Nat :=
  if 0 < len ∧ base + len > 4096 then some (max base 4096) else none

/-- The pseudocode's `for k in 0 .. n-1: body k`, in rising order (R14). -/
def forUpTo (n : Nat) (body : Nat → State → State) (s : State) : State :=
  match n with
  | 0 => s
  | k + 1 => body k (forUpTo k body s)

/-! ## Faults -/

/-- Raising a fault (R13, R207): the record is set and pc is the faulting instruction's address; nothing else changes.
There is no handler, no vector and no return from a fault (R212): only CONSTRUCT leaves the faulted state (R211). -/
def raiseAt (a : Word) (opcode : Option Word) (kind : FaultKind) (info : Nat) (s : State) : State :=
  { s with pc := a, fault := some { kind := kind, pc := a, opcode := opcode, info := info } }

/-- A fault raised by the executing instruction `i`: pc holds its address plus 2 (R25), and its word is recorded. -/
def raise (kind : FaultKind) (info : Nat) (i : Instr) (s : State) : Result :=
  .next (raiseAt (s.pc - 2) (some (encode i)) kind info s)

/-- A fault raised by the fetch: no word is recorded (R202). -/
def raiseFetch (s : State) : State := raiseAt s.pc none .fetchBounds s.pc.toNat s

end Sys2Proof.Machine
end

