-- ==== Sys2Proof/Machine/Alu.lean ====
section
/-! DEFINITION. The register and arithmetic instructions (R130 to R143). The statements of each rule run in its order and
each reads what the earlier ones wrote (R14), which matters where VF is an operand. -/

namespace Sys2Proof.Machine

/-- 6xkk LD Vx, kk (R132). -/
def execLdImm (x : Reg) (kk : Byte) (s : State) : Result := .next (s.setReg x kk)

/-- 7xkk ADD Vx, kk (R133): no flag. -/
def execAddImm (x : Reg) (kk : Byte) (s : State) : Result := .next (s.setReg x (s.reg x + kk))

/-- 8xy0 LD Vx, Vy (R134). -/
def execLdReg (x y : Reg) (s : State) : Result := .next (s.setReg x (s.reg y))

/-- 8xy1 OR Vx, Vy (R135): VF is not reset. -/
def execOr (x y : Reg) (s : State) : Result := .next (s.setReg x (s.reg x ||| s.reg y))

/-- 8xy2 AND Vx, Vy (R136): VF is not reset. -/
def execAnd (x y : Reg) (s : State) : Result := .next (s.setReg x (s.reg x &&& s.reg y))

/-- 8xy3 XOR Vx, Vy (R137): VF is not reset. -/
def execXor (x y : Reg) (s : State) : Result := .next (s.setReg x (s.reg x ^^^ s.reg y))

/-- 8xy4 ADD Vx, Vy (R138): the sum, then the carry. -/
def execAddReg (x y : Reg) (s : State) : Result :=
  .next ((s.setReg x (s.reg x + s.reg y)).setFlag (carryOut (s.reg x) (s.reg y)))

/-- 8xy5 SUB Vx, Vy (R139): the flag, then the difference of the registers as they then stand. -/
def execSub (x y : Reg) (s : State) : Result :=
  let t := s.setFlag (notBorrow (s.reg x) (s.reg y))
  .next (t.setReg x (t.reg x - t.reg y))

/-- 8xy6 SHR Vx (R140): the flag, then the shift; Vy is not read (R81). -/
def execShr (x _y : Reg) (s : State) : Result :=
  let t := s.setFlag (shiftedOutRight (s.reg x))
  .next (t.setReg x (t.reg x >>> 1))

/-- 8xy7 SUBN Vx, Vy (R141): the flag, then the difference of the registers as they then stand. -/
def execSubn (x y : Reg) (s : State) : Result :=
  let t := s.setFlag (notBorrow (s.reg y) (s.reg x))
  .next (t.setReg x (t.reg y - t.reg x))

/-- 8xyE SHL Vx (R142): the flag, then the shift; Vy is not read (R81). -/
def execShl (x _y : Reg) (s : State) : Result :=
  let t := s.setFlag (shiftedOutLeft (s.reg x))
  .next (t.setReg x (t.reg x <<< 1))

/-- Cxkk RND Vx, kk (R143): the drawn byte is a free value (log entry 3). -/
def execRnd (x : Reg) (kk : Byte) (s : State) : Result :=
  .next (s.countDraw.setReg x (s.nextDraw &&& kk))

end Sys2Proof.Machine
end

