-- ==== Sys2Proof/Machine/Display.lean ====
section
/-! DEFINITION. The display instructions (R100, R101): CLS and DRW. -/

namespace Sys2Proof.Machine

/-- 00E0 CLS (R100). -/
def execCls (s : State) : Result := .next s.clearDisplay

/-- The sprite bit of column `c`, most significant first: column `c` is bit `7-c` (R101). -/
def spriteBit (b : Byte) (c : Nat) : Bool := b.getLsbD (7 - c)

/-- One drawn 1-bit: a lit cell sets VF, and the cell is inverted (R101). -/
def toggleCell (px py : Nat) (s : State) : State :=
  let hit := if s.cell px py then s.setReg VF 1 else s
  hit.setCell px py (!s.cell px py)

/-- One row of a sprite; the columns past 63 are clipped (R101). -/
def drawRow (b : Byte) (x0 py : Nat) (s : State) : State :=
  forUpTo (min 8 (64 - x0)) (fun c t => if spriteBit b c then toggleCell (x0 + c) py t else t) s

/-- The drawn rows of a sprite, each read from memory at I plus its number (R101). -/
def drawSprite (x0 y0 rows : Nat) (s : State) : State :=
  forUpTo rows (fun r t => drawRow (t.mem.read (t.I.toNat + r)) x0 (y0 + r) t) s

/-- Dxyn DRW Vx, Vy, n (R101): the origin wraps and is read before VF is cleared, the rows past 31 are neither read nor
drawn, and the address check comes before any change. -/
def execDrw (x y : Reg) (n : Nat) (s : State) : Result :=
  let x0 := (s.reg x).toNat % 64
  let y0 := (s.reg y).toNat % 32
  let rows := min n (32 - y0)
  match firstOutside s.I.toNat rows with
  | some a => raise .memBounds a (.drw x y n) s
  | none => .next (drawSprite x0 y0 rows (s.setReg VF 0))

end Sys2Proof.Machine
end

