-- ==== Sys2Proof/Machine/Flow.lean ====
section
/-! DEFINITION. The control-flow instructions (R110 to R118). Each runs with pc already past its own word (R25). -/

namespace Sys2Proof.Machine

/-- 00EE RET (R111). -/
def execRet (s : State) : Result :=
  match popReturn s with
  | some t => .next t
  | none => raise .stackUnderflow 0 .ret s

/-- 1nnn JP nnn (R112). -/
def execJp (nnn : Nat) (s : State) : Result := .next (s.setPc (zextAddr nnn))

/-- 2nnn CALL nnn (R113). -/
def execCall (nnn : Nat) (s : State) : Result :=
  match pushReturn s.pc s with
  | some t => .next (t.setPc (zextAddr nnn))
  | none => raise .stackOverflow nnn (.call nnn) s

/-- 3xkk SE Vx, kk (R114). -/
def execSeImm (x : Reg) (kk : Byte) (s : State) : Result := .next (s.skipIf (s.reg x == kk))

/-- 4xkk SNE Vx, kk (R115). -/
def execSneImm (x : Reg) (kk : Byte) (s : State) : Result := .next (s.skipIf (s.reg x != kk))

/-- 5xy0 SE Vx, Vy (R116). -/
def execSeReg (x y : Reg) (s : State) : Result := .next (s.skipIf (s.reg x == s.reg y))

/-- 9xy0 SNE Vx, Vy (R117). -/
def execSneReg (x y : Reg) (s : State) : Result := .next (s.skipIf (s.reg x != s.reg y))

/-- Bnnn JP V0, nnn (R118): the sum is not reduced to 12 bits. -/
def execJpV0 (nnn : Nat) (s : State) : Result := .next (s.setPc (zextAddr nnn + zextByte (s.reg V0)))

end Sys2Proof.Machine
end

