-- ==== Sys2Proof/Machine/IndexMemory.lean ====
section
/-! DEFINITION. The index-register and memory instructions (R150 to R157). None changes pc; only Annn, Fx1E and Fx29 write I;
each data access checks its whole range before its first write (R150). -/

namespace Sys2Proof.Machine

/-- Annn LD I, nnn (R151). -/
def execLdI (nnn : Nat) (s : State) : Result := .next (s.setI (zextAddr nnn))

/-- Fx1E ADD I, Vx (R153): a sum that does not fit 16 bits is a fault. -/
def execAddI (x : Reg) (s : State) : Result :=
  let sum := s.I.toNat + (s.reg x).toNat
  if sum > 65535 then raise .indexWrap sum (.addI x) s
  else .next (s.setI (BitVec.ofNat 16 sum))

/-- Fx29 LD F, Vx (R154): Vx is not masked. -/
def execLdF (x : Reg) (s : State) : Result := .next (s.setI (zextByte (s.reg x) * 5))

/-- The three decimal digits of a byte, hundreds first (R155). -/
def bcdDigits (v : Byte) : List Byte :=
  [BitVec.ofNat 8 (v.toNat / 100), BitVec.ofNat 8 (v.toNat / 10 % 10), BitVec.ofNat 8 (v.toNat % 10)]

/-- Fx33 LD B, Vx (R155). -/
def execLdB (x : Reg) (s : State) : Result :=
  match firstOutside s.I.toNat 3 with
  | some a => raise .memBounds a (.ldB x) s
  | none => .next { s with mem := s.mem.writeMany s.I.toNat (bcdDigits (s.reg x)) }

/-- `MemWrite(I + k, 1, V[k])`. -/
def storeReg (k : Nat) (s : State) : State := s.setByte (s.I.toNat + k) (s.reg (Fin.ofNat 16 k))

/-- `V[k] <- MemRead(I + k, 1)`. -/
def loadReg (k : Nat) (s : State) : State := s.setReg (Fin.ofNat 16 k) (s.mem.read (s.I.toNat + k))

/-- Fx55 LD [I], Vx (R156): V0 to Vx, in rising order; I does not change. -/
def execLdStore (x : Reg) (s : State) : Result :=
  match firstOutside s.I.toNat (x.val + 1) with
  | some a => raise .memBounds a (.ldStore x) s
  | none => .next (forUpTo (x.val + 1) storeReg s)

/-- Fx65 LD Vx, [I] (R157): V0 to Vx, in rising order; I does not change. -/
def execLdLoad (x : Reg) (s : State) : Result :=
  match firstOutside s.I.toNat (x.val + 1) with
  | some a => raise .memBounds a (.ldLoad x) s
  | none => .next (forUpTo (x.val + 1) loadReg s)

end Sys2Proof.Machine
end

