-- ==== Sys2Proof/Machine/InputTimers.lean ====
section
/-! DEFINITION. The input and timer instructions (R170 to R176). -/

namespace Sys2Proof.Machine

/-- Ex9E SKP Vx (R171): a key number above 15 is a fault (R170). -/
def execSkp (x : Reg) (s : State) : Result :=
  match keyIndex (s.reg x) with
  | some k => .next (s.skipIf (s.pressed k))
  | none => raise .keyRange (s.reg x).toNat (.skp x) s

/-- ExA1 SKNP Vx (R172): a key number above 15 is a fault (R170). -/
def execSknp (x : Reg) (s : State) : Result :=
  match keyIndex (s.reg x) with
  | some k => .next (s.skipIf (!s.pressed k))
  | none => raise .keyRange (s.reg x).toNat (.sknp x) s

/-- Fx07 LD Vx, DT (R173). -/
def execLdVxDt (x : Reg) (s : State) : Result := .next (s.setReg x s.DT)

/-- The latched key `k`: while it is held the instruction executes again; its release stores `k` and clears the
latch (R174). -/
def awaitRelease (x : Reg) (k : Fin 16) (s : State) : State :=
  if s.pressed k then s.regress else (s.setReg x (BitVec.ofNat 8 k.val)).setWait none

/-- Fx0A LD Vx, K (R174): with nothing latched, latch the lowest pressed key, or execute again if there is none. -/
def execLdVxK (x : Reg) (s : State) : Result :=
  match s.wait with
  | some k => .next (awaitRelease x k s)
  | none =>
    match s.firstPressed with
    | some k => .next (awaitRelease x k (s.setWait (some k)))
    | none => .next s.regress

/-- Fx15 LD DT, Vx (R175). -/
def execLdDtVx (x : Reg) (s : State) : Result := .next (s.setDT (s.reg x))

/-- Fx18 LD ST, Vx (R176). -/
def execLdStVx (x : Reg) (s : State) : Result := .next (s.setST (s.reg x))

end Sys2Proof.Machine
end

