-- ==== Sys2Proof/Machine/Step.lean ====
section
/-! DEFINITION. One STEP (R83, R221), and how the host places an instruction where STEP fetches it. -/

namespace Sys2Proof.Machine

/-- One STEP (R83): nothing when faulted (R211); a fetch fault (R54); an unknown opcode is a no-op past its word (R80);
else the decoded instruction's effect with pc past its word. -/
def step (s : State) : Host.Outcome State Fault Refusal :=
  if s.fault.isSome then .next s
  else
    match fetch s with
    | none => .next (raiseFetch s)
    | some op =>
      match decode op with
      | .ok i => exec i s.advance
      | .error _ => .next s.advance

/-- The state with the low `nbits` bits of `w` stored as the instruction word at pc, which is where a STEP that is not
faulted fetches (R54); log entry 5 says how a program comes to run. -/
def State.withFetchWord (s : State) (nbits w : Nat) : State :=
  s.storeWord s.pc.toNat (BitVec.ofNat 16 (w % 2 ^ nbits))

end Sys2Proof.Machine
end

