-- ==== Sys2Proof/Machine/Transactions.lean ====
section
/-! DEFINITION. The host's transactions beside STEP (TICK, KEY, CONSTRUCT), the outputs, and schedules (R215 to R227).
Every serial interleaving is a list of transactions (R227, D2). -/

namespace Sys2Proof.Machine

/-! ## TICK -/

/-- A timer decremented by one, with a floor at zero (R215). -/
def countDown (b : Byte) : Byte := if b = 0 then 0 else b - 1

/-- TICK (R215, R222): it acts whether or not the core is faulted or waiting. -/
def tick (s : State) : State := (s.setDT (countDown s.DT)).setST (countDown s.ST)

/-! ## KEY -/

/-- KEY(k, b) (R223): `key[k] <- b`; an index above 15 is refused (D22). It acts whether or not the core is faulted. -/
def keyEvent (k : Nat) (b : Bool) (s : State) : Result :=
  if h : k < 16 then .next { s with key := s.key.set k b } else .refused .keyIndexOutOfRange

/-! ## CONSTRUCT -/

/-- The byte CONSTRUCT leaves at an address (R230): the font, the image, or the fill. -/
def constructByte (font memInit : Nat → Byte) (image : List Byte) (a : Nat) : Byte :=
  if a < 80 then font a
  else if 512 ≤ a ∧ a < 512 + image.length then image.getD (a - 512) 0
  else memInit a

/-- The state CONSTRUCT builds: nothing of the state before survives but the model's own count of draws, so that no draw
is repeated (log entry 3). -/
def constructed (font memInit : Nat → Byte) (image : List Byte) (s : State) : State :=
  { State.reset with mem := Memory.ofBytes (constructByte font memInit image), draws := s.draws }

/-- CONSTRUCT(image) (R224, R230) under the parameters FONT and MEM_INIT of R7: the only reset, and the only way out of
a fault (R212, R233). -/
def construct (font memInit : Nat → Byte) (image : List Byte) (s : State) : Result :=
  if image.length > 3584 then .refused .loadTooLarge else .next (constructed font memInit image s)

/-! ## Outputs -/

/-- The sound output (R216). -/
def soundActive (s : State) : Bool := s.ST.toNat > 0

/-- The display output: the 2048 cells of `disp` in the order of their indices (R217, R31). -/
def displayOutput (s : State) : List Bool := (List.range 2048).map fun i => s.cell (i % 64) (i / 64)

/-- The fault status output (R225). -/
def faultStatus (s : State) : Option FaultRecord := s.fault

/-- The event `UNKNOWN_OPCODE(a, op)` (R209). -/
structure Report where
  addr : Word
  opcode : Word
  deriving DecidableEq, Repr

/-- The report the STEP from this state emits: an output event, not state (R36, R209). -/
def stepReport (s : State) : Option Report :=
  if s.fault.isSome then none
  else
    match fetch s with
    | none => none
    | some op =>
      match decode op with
      | .ok _ => none
      | .error _ => some { addr := s.pc, opcode := op }

/-- What a STEP signals to the host (R221). -/
inductive Signal where
  | completed
  | reported (r : Report)
  | raised (r : FaultRecord)
  | nothing
  deriving DecidableEq, Repr

/-- What the STEP from this state signals (R221). -/
def stepSignal (s : State) : Signal :=
  if s.fault.isSome then .nothing
  else
    match stepReport s, step s with
    | some r, _ => .reported r
    | none, .next t =>
      match t.fault with
      | some r => .raised r
      | none => .completed
    | none, _ => .completed

/-! ## Schedules -/

/-- The transactions that reach the block (R220). -/
inductive Transaction where
  | step
  | tick
  | key (k : Nat) (pressed : Bool)
  | construct (font memInit : Nat → Byte) (image : List Byte)

/-- One transaction, to completion (R226). -/
def transact (t : Transaction) (s : State) : Result :=
  match t with
  | .step => step s
  | .tick => .next (tick s)
  | .key k b => keyEvent k b s
  | .construct font memInit image => construct font memInit image s

/-- A serial schedule of transactions, stopping where one is refused (R226, R227). -/
def transactAll : List Transaction → State → Result
  | [], s => .next s
  | t :: ts, s =>
    match transact t s with
    | .next s' => transactAll ts s'
    | .fault r => .fault r
    | .refused r => .refused r

/-- One frame of the driver loop (R227): IPF STEPs, a TICK, the render (which changes nothing, R217), the pending KEYs. -/
def driverFrame (ipf : Nat) (keys : List (Nat × Bool)) : List Transaction :=
  List.replicate ipf .step ++ [.tick] ++ keys.map fun e => .key e.1 e.2

end Sys2Proof.Machine
end

