-- ==== Sys2Proof/Safety.lean ====
section
/-! DEFINITION. The terms claims are stated in: stops and safe states, what each instruction may write, why it may raise,
the picture of a sprite, and the invariants of the machine. No meaning uses any of these. -/

namespace Sys2Proof.Machine

/-! ## Stops (R241) -/

/-- A faulted state (R211): never a good end. -/
def Faulted (s : State) : Prop := s.fault ≠ none

/-- An idle loop: the word at pc is `1nnn` with `nnn` equal to pc (R241). -/
def IdleLoop (s : State) : Prop :=
  s.fault = none ∧ ∃ op nnn, fetch s = some op ∧ decode op = .ok (.jp nnn) ∧ nnn = s.pc.toNat

/-- The instruction a STEP that is not faulted fetches at pc. -/
def FetchesInstr (s : State) (i : Instr) : Prop := ∃ op, fetch s = some op ∧ decode op = .ok i

/-! ## What an instruction may write -/

/-- The general registers an instruction names as destinations or writes as a flag (R22, R131). -/
def writtenRegs : Instr → List Reg
  | .ldImm x _ | .addImm x _ | .rnd x _ => [x]
  | .ldReg x _ | .orReg x _ | .andReg x _ | .xorReg x _ => [x]
  | .addReg x _ | .sub x _ | .shr x _ | .subn x _ | .shl x _ => [x, VF]
  | .drw _ _ _ => [VF]
  | .ldVxDt x | .ldVxK x => [x]
  | .ldLoad x => (List.finRange 16).filter fun r => r.val ≤ x.val
  | .cls | .ret | .jp _ | .call _ | .jpV0 _ | .ldI _ => []
  | .seImm _ _ | .sneImm _ _ | .seReg _ _ | .sneReg _ _ => []
  | .skp _ | .sknp _ | .ldDtVx _ | .ldStVx _ | .addI _ | .ldF _ | .ldB _ | .ldStore _ => []

/-- How many bytes an instruction stores, from I upwards (R57). -/
def storedLen : Instr → Nat
  | .ldB _ => 3
  | .ldStore x => x.val + 1
  | .cls | .ret | .jp _ | .call _ | .jpV0 _ | .ldI _ => 0
  | .seImm _ _ | .sneImm _ _ | .seReg _ _ | .sneReg _ _ => 0
  | .ldImm _ _ | .addImm _ _ | .rnd _ _ | .ldReg _ _ | .orReg _ _ | .andReg _ _ | .xorReg _ _ => 0
  | .addReg _ _ | .sub _ _ | .shr _ _ | .subn _ _ | .shl _ _ | .drw _ _ _ => 0
  | .ldVxDt _ | .ldVxK _ | .ldLoad _ | .skp _ | .sknp _ | .ldDtVx _ | .ldStVx _ | .addI _ | .ldF _ => 0

/-- The instructions that change pc further than the fetch did (R25). -/
def movesPc : Instr → Bool
  | .ret | .jp _ | .call _ | .jpV0 _ | .ldVxK _ => true
  | .seImm _ _ | .sneImm _ _ | .seReg _ _ | .sneReg _ _ | .skp _ | .sknp _ => true
  | .cls | .ldI _ | .drw _ _ _ | .rnd _ _ | .ldImm _ _ | .addImm _ _ => false
  | .ldReg _ _ | .orReg _ _ | .andReg _ _ | .xorReg _ _ => false
  | .addReg _ _ | .sub _ _ | .shr _ _ | .subn _ _ | .shl _ _ => false
  | .ldVxDt _ | .ldDtVx _ | .ldStVx _ | .addI _ | .ldF _ | .ldB _ | .ldStore _ | .ldLoad _ => false

/-! ## Why an instruction may raise (R201) -/

/-- `info` is the lowest of the `len` addresses from `base` that lies above 4095 (R58). -/
def LowestOutside (base len info : Nat) : Prop :=
  (base ≤ info ∧ info < base + len ∧ 4095 < info) ∧ ∀ a, base ≤ a → a < base + len → 4095 < a → info ≤ a

/-- The rows of a sprite that are drawn (R101). -/
def rowsDrawn (s : State) (y : Reg) (n : Nat) : Nat := min n (32 - (s.reg y).toNat % 32)

/-- The table of R201: the kind and `info` an executing instruction raises with, and its cause. -/
def Cause (s : State) (kind : FaultKind) (info : Nat) : Instr → Prop
  | .call nnn => kind = .stackOverflow ∧ s.sp.val = 16 ∧ info = nnn
  | .ret => kind = .stackUnderflow ∧ s.sp.val = 0 ∧ info = 0
  | .drw _ y n => kind = .memBounds ∧ LowestOutside s.I.toNat (rowsDrawn s y n) info
  | .ldB _ => kind = .memBounds ∧ LowestOutside s.I.toNat 3 info
  | .ldStore x | .ldLoad x => kind = .memBounds ∧ LowestOutside s.I.toNat (x.val + 1) info
  | .addI x => kind = .indexWrap ∧ 65535 < info ∧ info = s.I.toNat + (s.reg x).toNat
  | .skp x | .sknp x => kind = .keyRange ∧ 15 < info ∧ info = (s.reg x).toNat
  | .cls | .jp _ | .jpV0 _ | .ldI _ | .seImm _ _ | .sneImm _ _ | .seReg _ _ | .sneReg _ _ => False
  | .ldImm _ _ | .addImm _ _ | .rnd _ _ | .ldReg _ _ | .orReg _ _ | .andReg _ _ | .xorReg _ _ => False
  | .addReg _ _ | .sub _ _ | .shr _ _ | .subn _ _ | .shl _ _ => False
  | .ldVxDt _ | .ldVxK _ | .ldDtVx _ | .ldStVx _ | .ldF _ => False

/-! ## The picture of a sprite (R101) -/

/-- Whether the sprite of `rows` rows at I, drawn with its origin at column `x0` and row `y0`, has a 1-bit at column
`px` and row `py`, most significant bit first. -/
def SpriteAt (s : State) (x0 y0 rows px py : Nat) : Bool :=
  (x0 ≤ px && px < x0 + 8 && y0 ≤ py && py < y0 + rows) &&
    (s.mem.read (s.I.toNat + (py - y0))).getLsbD (7 - (px - x0))

/-! ## Invariants -/

/-- Memory is in canonical form. -/
abbrev MemoryCanonical (s : State) : Prop := s.mem.wf = true

/-- pc is at most 0x10FE and every return address at most 0x1000 (R25, R111). -/
abbrev PcBounded (s : State) : Prop :=
  s.pc.toNat ≤ 0x10FE ∧ ∀ k : Fin 16, (s.stack[k.val]).toNat ≤ 0x1000

/-- A key is latched only while the core, not faulted, is at an Fx0A (R32, R174). -/
def WaitsAtKeyWait (s : State) : Prop :=
  ∀ k, s.wait = some k → s.fault = none ∧ ∃ x, FetchesInstr s (.ldVxK x)

/-- A fault record is the one the STEP at its pc raises: without the record, the STEP raises it again (R207). -/
def FaultReproducible (s : State) : Prop :=
  s.fault ≠ none → step { s with fault := none } = .next s

end Sys2Proof.Machine
end

