-- ==== Sys2Proof/Certificates/Slice0/Obligations.lean ====
section
/-! DEFINITION. The statements about the CHIP-8 core. A statement that rests on one of the spec's own decisions (D<n> of
92_eei_decisions.md) or on a choice of the model names it in its docstring. `exec i s` is entered with pc at the
instruction's address plus 2 (R25). -/

open Sys2Proof Sys2Proof.Machine Host.Outcome

/-! ## Encoding -/

/-- R70, R71, R74: the decoder gives back every instruction whose operands fit their fields. -/
def Obligations.DecodeOfEncodeIsTheInstruction : Prop :=
  ∀ i : Instr, WellFormed i → decode (encode i) = .ok i

/-- R71, R81: no bit of a word is dropped, the ignored `y` of SHR and SHL included. -/
def Obligations.EncodeOfDecodeIsTheWord : Prop :=
  ∀ (op : Word) (i : Instr), decode op = .ok i → WellFormed i ∧ encode i = op

/-- R74: a word decodes to an instruction of the one row whose mask and match select it. The strict match of the constant
nibbles is the spec's decision D6. -/
def Obligations.WordDecodesToTheRowThatSelectsIt : Prop :=
  (∀ (op : Word) (i : Instr), decode op = .ok i → i.row.selects op = true) ∧
  (∀ (op : Word) (r : Row), r ∈ opcodeTable → r.selects op = true → ∃ i, decode op = .ok i ∧ i.row = r)

/-- R71: the fields are these bits of the word. -/
def Obligations.FieldsAreTheBitsOfTheWord : Prop :=
  ∀ op : Word,
    fieldT op = (op.extractLsb' 12 4).toNat ∧ (fieldX op).val = (op.extractLsb' 8 4).toNat ∧
    (fieldY op).val = (op.extractLsb' 4 4).toNat ∧ fieldN op = (op.extractLsb' 0 4).toNat ∧
    fieldKK op = op.extractLsb' 0 8 ∧ fieldNNN op = (op.extractLsb' 0 12).toNat ∧
    fieldNNN op = (op &&& 0xFFF).toNat ∧ (fieldKK op).toNat = (op &&& 0xFF).toNat ∧ fieldN op = (op &&& 0xF).toNat ∧
    (fieldX op).val = ((op >>> 8) &&& 0xF).toNat ∧ (fieldY op).val = ((op >>> 4) &&& 0xF).toNat

/-- R75, R77, R78, R79: in the groups other than 5 and 9, these words are unknown opcodes and all others are instructions. -/
def Obligations.UnknownWordsOfTheGroups : Prop :=
  ∀ op : Word, fieldT op ≠ 5 → fieldT op ≠ 9 →
    if (fieldT op = 0 ∧ op ≠ 0x00E0 ∧ op ≠ 0x00EE) ∨
        (fieldT op = 8 ∧ fieldN op ∉ [0, 1, 2, 3, 4, 5, 6, 7, 0xE]) ∨
        (fieldT op = 0xE ∧ fieldKK op ∉ [0x9E, 0xA1]) ∨
        (fieldT op = 0xF ∧ fieldKK op ∉ [0x07, 0x0A, 0x15, 0x18, 0x1E, 0x29, 0x33, 0x55, 0x65])
      then decode op = .error (.unknownOpcode op)
      else ∃ i, decode op = .ok i

/-- R76, the spec's decision D6: in groups 5 and 9 a low nibble other than 0 makes the word an unknown opcode. -/
def Obligations.GroupsFiveAndNineNeedAZeroLowNibble : Prop :=
  ∀ op : Word,
    (fieldT op = 5 → decode op = if fieldN op = 0 then .ok (.seReg (fieldX op) (fieldY op)) else .error (.unknownOpcode op)) ∧
    (fieldT op = 9 → decode op = if fieldN op = 0 then .ok (.sneReg (fieldX op) (fieldY op)) else .error (.unknownOpcode op))

/-- R74: words written out from the map decode to the instructions they stand for. -/
def Obligations.SampleWordsDecode : Prop :=
  decode 0xD123 = .ok (.drw 1 2 3) ∧ decode 0x2204 = .ok (.call 0x204) ∧ decode 0x8124 = .ok (.addReg 1 2) ∧
  decode 0x71FF = .ok (.addImm 1 0xFF) ∧ decode 0xF265 = .ok (.ldLoad 2) ∧ decode 0xE5A1 = .ok (.sknp 5) ∧
  decode 0x800F = .error (.unknownOpcode 0x800F)

/-! ## The step -/

/-- R83, R54, R55: a STEP that is not faulted reads the two bytes at pc, most significant first, at an odd pc as at an
even one, and runs the instruction they decode to with pc past them. -/
def Obligations.StepRunsTheDecodedInstruction : Prop :=
  ∀ (s : State) (hi lo : Byte) (op : Word) (i : Instr), s.fault = none → s.pc.toNat ≤ 4094 →
    s.mem.read s.pc.toNat = hi → s.mem.read (s.pc.toNat + 1) = lo → op.toNat = hi.toNat * 256 + lo.toNat →
    decode op = .ok i → step s = exec i { s with pc := s.pc + 2 } ∧ stepReport s = none

/-- R80, R209: an unknown opcode moves pc past its word, changes nothing else and is reported. The content of the report
is the spec's decision D5. -/
def Obligations.UnknownOpcodeIsAReportedNoOp : Prop :=
  ∀ (s : State) (op : Word), s.fault = none → fetch s = some op → decode op = .error (.unknownOpcode op) →
    step s = next { s with pc := s.pc + 2 } ∧ stepReport s = some ⟨s.pc, op⟩ ∧
    stepSignal s = .reported ⟨s.pc, op⟩

/-- R54, R202, R207, the spec's decisions D3, D4 and D18: a fetch that passes address 4095 records FETCH_BOUNDS, with no
word, and changes nothing else. -/
def Obligations.FetchPastMemoryFaults : Prop :=
  ∀ s : State, s.fault = none → 4095 ≤ s.pc.toNat →
    step s = next { s with fault := some ⟨.fetchBounds, s.pc, none, s.pc.toNat⟩ } ∧ stepReport s = none

/-- R211, the spec's decisions D3 and D21: a STEP of a faulted core does nothing and reports nothing; TICK and KEY still act
and leave the record. -/
def Obligations.FaultedCoreOnlyTicksAndTakesKeys : Prop :=
  ∀ s : State, s.fault ≠ none →
    step s = next s ∧ stepReport s = none ∧ stepSignal s = .nothing ∧ (tick s).fault = s.fault ∧
    (tick s).DT = countDown s.DT ∧ (tick s).ST = countDown s.ST ∧
    ∀ (k : Fin 16) (b : Bool), ∃ t, keyEvent k.val b s = next t ∧ t.pressed k = b ∧ t.fault = s.fault

/-- R84: every STEP completes or raises, and both leave a next state. That a fault is a state and no stop is the spec's
decision D3. -/
def Obligations.EveryStepAnswersANextState : Prop :=
  ∀ s : State, ∃ t, step s = next t

/-- R207, R34, the spec's decisions D3 and D4: a STEP that raises changes nothing but the fault record, which names the
address of the instruction and its word, none where the fetch itself failed. -/
def Obligations.RaisingStepChangesOnlyTheRecord : Prop :=
  ∀ (s t : State) (r : FaultRecord), s.fault = none → step s = next t → t.fault = some r →
    t = { s with fault := some r } ∧ r.pc = s.pc ∧ r.opcode = fetch s ∧ (r.opcode = none ↔ r.kind = .fetchBounds) ∧
    stepSignal s = .raised r

/-- R201, R203 to R208, R58, the spec's decisions D3, D4, D9, D10 and D11: an executing instruction raises exactly for the
causes of the table, with the kind and info the table names. -/
def Obligations.InstructionsRaiseExactlyForTheirCauses : Prop :=
  ∀ (i : Instr) (s t : State), s.fault = none → exec i s = next t →
    ∀ r : FaultRecord, t.fault = some r ↔
      r.pc = s.pc - 2 ∧ r.opcode = some (encode i) ∧ Cause s r.kind r.info i

/-- R63, R237: the bytes Fx55 stores are what the next fetch there reads. -/
def Obligations.FetchReadsWhatAStoreWrote : Prop :=
  ∀ (s : State) (x : Reg) (k : Nat) (hk : k < x.val), MemoryCanonical s → s.I.toNat + x.val ≤ 4095 →
    ∃ t, exec (.ldStore x) s = next t ∧
      ∀ u : State, u.mem = t.mem → u.pc.toNat = s.I.toNat + k →
        fetch u = some (wordOfBytes (s.reg ⟨k, by omega⟩) (s.reg ⟨k + 1, by omega⟩))

/-! ## Frames: what an instruction leaves unchanged -/

/-- R22, R131, R57: every general register but the destinations and VF as a flag is unchanged. -/
def Obligations.OnlyDestinationRegistersChange : Prop :=
  ∀ (i : Instr) (s t : State) (r : Reg), exec i s = next t → r ∉ writtenRegs i → t.reg r = s.reg r

/-- R57, R50: every byte of memory reads as before but those Fx33 and Fx55 store, which are the bytes from I upwards; no
other instruction stores. -/
def Obligations.OnlyStoredBytesChange : Prop :=
  ∀ (i : Instr) (s t : State) (a : Nat), MemoryCanonical s → exec i s = next t →
    a < s.I.toNat ∨ s.I.toNat + storedLen i ≤ a → t.mem.read a = s.mem.read a

/-- R31: only CLS and DRW change a display cell, and DRW only cells of its sprite. That the sprite's origin is read before
VF is cleared, which places the sprite of DFyn and DxFn, is the spec's decision D8 (log entry 11). -/
def Obligations.OnlyDisplayInstructionsChangeCells : Prop :=
  ∀ (i : Instr) (s t : State) (px py : Nat), exec i s = next t → i ≠ .cls → t.cell px py ≠ s.cell px py →
    ∃ x y n, i = .drw x y n ∧
      SpriteAt s ((s.reg x).toNat % 64) ((s.reg y).toNat % 32) (rowsDrawn s y n) px py = true

/-- R26, R27: the call stack changes only by CALL and RET; CALL writes one entry and RET none. That RET leaves its entry is
the spec's decision D15. -/
def Obligations.OnlyCallAndRetChangeTheStack : Prop :=
  ∀ (i : Instr) (s t : State), exec i s = next t →
    ((∀ nnn, i ≠ .call nnn) → t.stack = s.stack ∧ (i ≠ .ret → t.sp = s.sp)) ∧
    (∀ k : Fin 16, k.val ≠ s.sp.val → t.stack[k.val] = s.stack[k.val])

/-- R23, R152: only Annn, Fx1E and Fx29 write I. R28, R29: only Fx15 writes DT and only Fx18 ST. -/
def Obligations.IndexAndTimersChangeOnlyByTheirWriters : Prop :=
  ∀ (i : Instr) (s t : State), exec i s = next t →
    ((∀ nnn, i ≠ .ldI nnn) → (∀ x, i ≠ .addI x) → (∀ x, i ≠ .ldF x) → t.I = s.I) ∧
    ((∀ x, i ≠ .ldDtVx x) → t.DT = s.DT) ∧ ((∀ x, i ≠ .ldStVx x) → t.ST = s.ST)

/-- R33: no instruction writes a key. R32: only Fx0A writes the latch. The count of draws, the model's own field (log
entry 3), advances at Cxkk alone. -/
def Obligations.KeysLatchAndDrawsChangeOnlyByTheirWriters : Prop :=
  ∀ (i : Instr) (s t : State), exec i s = next t →
    t.key = s.key ∧ ((∀ x, i ≠ .ldVxK x) → t.wait = s.wait) ∧
    ((∀ x kk, i ≠ .rnd x kk) → t.draws = s.draws)

/-- R25: an instruction that is no jump, call, return, skip or Fx0A leaves pc past its word unless it raises. No
instruction clears a fault record: that the record is sticky is the spec's decisions D3 and D4, which R34 names (log
entry 4). -/
def Obligations.OnlyControlFlowMovesPc : Prop :=
  ∀ (i : Instr) (s t : State), exec i s = next t →
    (movesPc i = false → s.fault = none → t.fault = none → t.pc = s.pc) ∧ (s.fault ≠ none → t.fault ≠ none)

/-- R33, R29, R81: the keys reach only Ex9E, ExA1 and Fx0A, the sound timer no instruction, and SHR and SHL give one result
whatever register their ignored nibble names. -/
def Obligations.KeysAndSoundTimerReachOnlyTheirReaders : Prop :=
  ∀ (i : Instr) (s t : State), exec i s = next t →
    (∀ ks : Vector Bool 16, (∀ x, i ≠ .skp x) → (∀ x, i ≠ .sknp x) → (∀ x, i ≠ .ldVxK x) →
      exec i { s with key := ks } = next { t with key := ks }) ∧
    (∀ b : Byte, (∀ x, i ≠ .ldStVx x) → exec i { s with ST := b } = next { t with ST := b }) ∧
    (∀ x y y', (i = .shr x y → exec (.shr x y') s = next t) ∧ (i = .shl x y → exec (.shl x y') s = next t))

/-! ## Display instructions -/

/-- R100. -/
def Obligations.ClsClearsEveryCell : Prop :=
  ∀ s : State, ∃ t, exec .cls s = next t ∧ (∀ px py, px < 64 → py < 32 → t.cell px py = false) ∧
    (∀ r, t.reg r = s.reg r) ∧ t.I = s.I ∧ t.mem = s.mem ∧ t.pc = s.pc

/-- R101: with its drawn rows in memory, DRW inverts exactly the cells under the 1-bits of its sprite, clipped at the right
and the bottom, and VF tells whether one of them was lit. That the origin is read before VF is cleared is the spec's
decision D8, that only drawn rows are checked D9. -/
def Obligations.DrwInvertsTheCellsOfItsSprite : Prop :=
  ∀ (x y : Reg) (n : Nat) (s : State),
    (rowsDrawn s y n = 0 ∨ s.I.toNat + rowsDrawn s y n ≤ 4096) →
    ∃ t, exec (.drw x y n) s = next t ∧
      (∀ px py, px < 64 → py < 32 → t.cell px py =
        (s.cell px py ^^ SpriteAt s ((s.reg x).toNat % 64) ((s.reg y).toNat % 32) (rowsDrawn s y n) px py)) ∧
      ((∃ px py, px < 64 ∧ py < 32 ∧ s.cell px py = true ∧
          SpriteAt s ((s.reg x).toNat % 64) ((s.reg y).toNat % 32) (rowsDrawn s y n) px py = true) →
        t.reg VF = 1) ∧
      ((∀ px py, px < 64 → py < 32 → s.cell px py = true →
          SpriteAt s ((s.reg x).toNat % 64) ((s.reg y).toNat % 32) (rowsDrawn s y n) px py = false) →
        t.reg VF = 0) ∧
      t.I = s.I ∧ t.mem = s.mem ∧ t.pc = s.pc

/-- R102 (derived by the spec from R101): the same sprite bytes drawn again at the same origin restore every cell, and the
second draw sets VF to 1 iff an on-screen 1-bit fell on a cell that was clear before the first. That the origin is read
before VF is cleared is the spec's decision D8, that only drawn rows need lie in memory D9 (log entry 11). -/
def Obligations.DrawingTwiceRestoresTheDisplay : Prop :=
  ∀ (x y x' y' : Reg) (n : Nat) (s t u : State),
    (rowsDrawn s y n = 0 ∨ s.I.toNat + rowsDrawn s y n ≤ 4096 ∧ u.I.toNat + rowsDrawn s y n ≤ 4096) →
    exec (.drw x y n) s = next t → u.disp = t.disp →
    (u.reg x').toNat % 64 = (s.reg x).toNat % 64 → (u.reg y').toNat % 32 = (s.reg y).toNat % 32 →
    (∀ r, r < n → u.mem.read (u.I.toNat + r) = s.mem.read (s.I.toNat + r)) →
    ∃ w, exec (.drw x' y' n) u = next w ∧
      (∀ px py, px < 64 → py < 32 → w.cell px py = s.cell px py) ∧
      (w.reg VF = 1 ↔ ∃ px py, px < 64 ∧ py < 32 ∧ s.cell px py = false ∧
        SpriteAt s ((s.reg x).toNat % 64) ((s.reg y).toNat % 32) (rowsDrawn s y n) px py = true)

/-! ## Control flow -/

/-- R111, R205: RET pops the newest return address, and with an empty stack raises STACK_UNDERFLOW. The record and that
nothing else changes are the spec's decisions D3 and D4. -/
def Obligations.RetPopsTheNewestReturnAddress : Prop :=
  ∀ s : State,
    (∀ k : Fin 16, s.sp.val = k.val + 1 →
      ∃ t, exec .ret s = next t ∧ t.pc = s.stack[k.val] ∧ t.sp.val = k.val ∧ t.stack = s.stack) ∧
    (s.sp.val = 0 →
      exec .ret s = next { s with pc := s.pc - 2, fault := some ⟨.stackUnderflow, s.pc - 2, some 0x00EE, 0⟩ })

/-- R113, R204: CALL pushes the address after it and jumps; with sixteen entries it raises STACK_OVERFLOW. The record and
that nothing else changes are the spec's decisions D3 and D4. -/
def Obligations.CallPushesTheAddressAfterIt : Prop :=
  ∀ (nnn : Nat) (s : State), nnn < 4096 →
    (∀ k : Fin 16, s.sp.val = k.val →
      ∃ t, exec (.call nnn) s = next t ∧ t.pc.toNat = nnn ∧ t.sp.val = k.val + 1 ∧ t.stack[k.val] = s.pc) ∧
    (s.sp.val = 16 →
      ∃ op : Word, op.toNat = 0x2000 + nnn ∧
        exec (.call nnn) s =
          next { s with pc := s.pc - 2, fault := some ⟨.stackOverflow, s.pc - 2, some op, nnn⟩ })

/-- R111, R113: a RET right after a CALL that found room resumes after the CALL with the stack as deep as before. -/
def Obligations.RetAfterCallResumesAfterTheCall : Prop :=
  ∀ (nnn : Nat) (s t : State), s.sp.val < 16 → exec (.call nnn) s = next t →
    ∀ u : State, u.sp = t.sp → u.stack = t.stack → ∃ w, exec .ret u = next w ∧ w.pc = s.pc ∧ w.sp = s.sp

/-- R112, R118: JP and JP V0 replace pc; the sum of JP V0 is not reduced to 12 bits, and odd targets are allowed. -/
def Obligations.JumpsReplacePc : Prop :=
  ∀ (nnn : Nat) (s : State), nnn < 4096 →
    (∃ t, exec (.jp nnn) s = next t ∧ t.pc.toNat = nnn ∧ t = { s with pc := t.pc }) ∧
    (∃ t, exec (.jpV0 nnn) s = next t ∧ t.pc.toNat = nnn + (s.reg 0).toNat ∧ t = { s with pc := t.pc })

/-- R114, R115, R116, R117: the four compare-and-skip instructions add 2 to pc, modulo 65536, exactly when their
comparison holds, and change nothing else. -/
def Obligations.SkipsAddTwoWhenTheComparisonHolds : Prop :=
  ∀ (x y : Reg) (kk : Byte) (s : State),
    (∃ t, exec (.seImm x kk) s = next t ∧ t = { s with pc := t.pc } ∧
      t.pc.toNat = if (s.reg x).toNat = kk.toNat then (s.pc.toNat + 2) % 65536 else s.pc.toNat) ∧
    (∃ t, exec (.sneImm x kk) s = next t ∧ t = { s with pc := t.pc } ∧
      t.pc.toNat = if (s.reg x).toNat ≠ kk.toNat then (s.pc.toNat + 2) % 65536 else s.pc.toNat) ∧
    (∃ t, exec (.seReg x y) s = next t ∧ t = { s with pc := t.pc } ∧
      t.pc.toNat = if (s.reg x).toNat = (s.reg y).toNat then (s.pc.toNat + 2) % 65536 else s.pc.toNat) ∧
    (∃ t, exec (.sneReg x y) s = next t ∧ t = { s with pc := t.pc } ∧
      t.pc.toNat = if (s.reg x).toNat ≠ (s.reg y).toNat then (s.pc.toNat + 2) % 65536 else s.pc.toNat)

/-! ## Register and arithmetic instructions -/

/-- R132, R134, R135, R136, R137: the loads and the three bitwise operations write their result to Vx and nothing else; VF
changes only as a named destination. -/
def Obligations.LoadsAndLogicWriteOnlyVx : Prop :=
  ∀ (x y : Reg) (kk : Byte) (s : State),
    (∃ t, exec (.ldImm x kk) s = next t ∧ t = { s with V := t.V } ∧
      ∀ r, t.reg r = if r = x then kk else s.reg r) ∧
    (∃ t, exec (.ldReg x y) s = next t ∧ t = { s with V := t.V } ∧
      ∀ r, t.reg r = if r = x then s.reg y else s.reg r) ∧
    (∃ t, exec (.orReg x y) s = next t ∧ t = { s with V := t.V } ∧
      ∀ r b, (t.reg r).getLsbD b = if r = x then ((s.reg x).getLsbD b || (s.reg y).getLsbD b) else (s.reg r).getLsbD b) ∧
    (∃ t, exec (.andReg x y) s = next t ∧ t = { s with V := t.V } ∧
      ∀ r b, (t.reg r).getLsbD b = if r = x then ((s.reg x).getLsbD b && (s.reg y).getLsbD b) else (s.reg r).getLsbD b) ∧
    (∃ t, exec (.xorReg x y) s = next t ∧ t = { s with V := t.V } ∧
      ∀ r b, (t.reg r).getLsbD b = if r = x then ((s.reg x).getLsbD b ^^ (s.reg y).getLsbD b) else (s.reg r).getLsbD b)

/-- R133: the sum is taken modulo 256, and VF changes only as the destination. -/
def Obligations.AddImmediateWrapsWithoutAFlag : Prop :=
  ∀ (x : Reg) (kk : Byte) (s : State), ∃ t, exec (.addImm x kk) s = next t ∧ t = { s with V := t.V } ∧
    ∀ r, (t.reg r).toNat = if r = x then ((s.reg x).toNat + kk.toNat) % 256 else (s.reg r).toNat

/-- R138: Vx becomes the sum modulo 256 and VF the carry, written last. The order that decides the case `x = 15` is the
spec's decision D7. -/
def Obligations.AddRegistersWritesTheCarryLast : Prop :=
  ∀ (x y : Reg) (s : State), ∃ t, exec (.addReg x y) s = next t ∧ t = { s with V := t.V } ∧
    (t.reg VF).toNat = (if (s.reg x).toNat + (s.reg y).toNat > 255 then 1 else 0) ∧
    (x ≠ VF → (t.reg x).toNat = ((s.reg x).toNat + (s.reg y).toNat) % 256) ∧
    (∀ r, r ≠ x → r ≠ VF → t.reg r = s.reg r)

/-- R139, R141: the strict not-borrow flag is written first, and the difference modulo 256 is of the registers as they then
stand. The order that decides the cases `x = 15` and `y = 15` is the spec's decision D7. -/
def Obligations.SubtractionsWriteTheFlagFirst : Prop :=
  ∀ (x y : Reg) (s : State),
    (∃ t f, exec (.sub x y) s = next t ∧ t = { s with V := t.V } ∧
      f = (if (s.reg x).toNat > (s.reg y).toNat then 1 else 0) ∧
      (x ≠ VF → (t.reg VF).toNat = f) ∧
      (x ≠ VF → y ≠ VF → (t.reg x).toNat = ((s.reg x).toNat + 256 - (s.reg y).toNat) % 256) ∧
      (x ≠ VF → y = VF → (t.reg x).toNat = ((s.reg x).toNat + 256 - f) % 256) ∧
      (x = VF → y ≠ VF → (t.reg x).toNat = (f + 256 - (s.reg y).toNat) % 256) ∧
      (x = y → (t.reg x).toNat = 0) ∧
      (∀ r, r ≠ x → r ≠ VF → t.reg r = s.reg r)) ∧
    (∃ t f, exec (.subn x y) s = next t ∧ t = { s with V := t.V } ∧
      f = (if (s.reg y).toNat > (s.reg x).toNat then 1 else 0) ∧
      (x ≠ VF → (t.reg VF).toNat = f) ∧
      (x ≠ VF → y ≠ VF → (t.reg x).toNat = ((s.reg y).toNat + 256 - (s.reg x).toNat) % 256) ∧
      (x ≠ VF → y = VF → (t.reg x).toNat = (f + 256 - (s.reg x).toNat) % 256) ∧
      (x = VF → y ≠ VF → (t.reg x).toNat = ((s.reg y).toNat + 256 - f) % 256) ∧
      (x = y → (t.reg x).toNat = 0) ∧
      (∀ r, r ≠ x → r ≠ VF → t.reg r = s.reg r))

/-- R140, R142: the bit shifted out is written to VF first, then Vx is shifted by one; Vy is not read. The order that
decides the case `x = 15` is the spec's decision D7. -/
def Obligations.ShiftsWriteTheBitShiftedOutFirst : Prop :=
  ∀ (x y : Reg) (s : State),
    (∃ t, exec (.shr x y) s = next t ∧ t = { s with V := t.V } ∧
      (x ≠ VF → (t.reg x).toNat = (s.reg x).toNat / 2 ∧ (t.reg VF).toNat = (s.reg x).toNat % 2) ∧
      (x = VF → (t.reg x).toNat = 0) ∧ (∀ r, r ≠ x → r ≠ VF → t.reg r = s.reg r)) ∧
    (∃ t, exec (.shl x y) s = next t ∧ t = { s with V := t.V } ∧
      (x ≠ VF → (t.reg x).toNat = (s.reg x).toNat * 2 % 256 ∧ (t.reg VF).toNat = (s.reg x).toNat / 128) ∧
      (x = VF → (t.reg x).toNat = (s.reg x).toNat / 128 * 2) ∧ (∀ r, r ≠ x → r ≠ VF → t.reg r = s.reg r))

/-- R143, the spec's decision D17: Vx becomes a drawn byte masked by kk, so a bit where kk has 0 is 0, whatever the draw;
the next draw is another one (log entry 3). -/
def Obligations.RndMasksAFreeByte : Prop :=
  ∀ (x : Reg) (kk : Byte) (s : State), ∃ t r, exec (.rnd x kk) s = next t ∧ r = Config.randomByte s.draws ∧
    t = { s with V := t.V, draws := s.draws + 1 } ∧ (∀ q, q ≠ x → t.reg q = s.reg q) ∧
    (∀ b, (t.reg x).getLsbD b = (r.getLsbD b && kk.getLsbD b)) ∧ (kk = 0 → t.reg x = 0)

/-! ## Index register and memory -/

/-- R151, R154: the new value of I; Vx is not masked to a digit. -/
def Obligations.IndexLoads : Prop :=
  ∀ (nnn : Nat) (x : Reg) (s : State), nnn < 4096 →
    (∃ t, exec (.ldI nnn) s = next t ∧ t.I.toNat = nnn ∧ t = { s with I := t.I }) ∧
    (∃ t, exec (.ldF x) s = next t ∧ t.I.toNat = (s.reg x).toNat * 5 ∧ t = { s with I := t.I })

/-- R153, R206, the spec's decisions D3, D4 and D10: I becomes the sum where it fits 16 bits, 4096 and above included, and
VF is unchanged; where it does not fit, INDEX_WRAP is raised. -/
def Obligations.AddToIndexNeverWraps : Prop :=
  ∀ (x : Reg) (s : State),
    (s.I.toNat + (s.reg x).toNat ≤ 65535 →
      ∃ t, exec (.addI x) s = next t ∧ t.I.toNat = s.I.toNat + (s.reg x).toNat ∧ t = { s with I := t.I }) ∧
    (s.I.toNat + (s.reg x).toNat > 65535 →
      exec (.addI x) s = next { s with
        pc := s.pc - 2
        fault := some ⟨.indexWrap, s.pc - 2, some (encode (.addI x)), s.I.toNat + (s.reg x).toNat⟩ })

/-- R155: the three decimal digits of Vx at I, I+1 and I+2, hundreds first; every other byte, I and the registers are
unchanged. R203, the spec's decision D3: a range that passes 4095 raises before any write. -/
def Obligations.BcdStoresThreeDigits : Prop :=
  ∀ (x : Reg) (s : State), MemoryCanonical s →
    (s.I.toNat + 2 ≤ 4095 →
      ∃ t, exec (.ldB x) s = next t ∧ t = { s with mem := t.mem } ∧
        (t.mem.read s.I.toNat).toNat = (s.reg x).toNat / 100 ∧
        (t.mem.read (s.I.toNat + 1)).toNat = (s.reg x).toNat / 10 % 10 ∧
        (t.mem.read (s.I.toNat + 2)).toNat = (s.reg x).toNat % 10 ∧
        (∀ a, a < s.I.toNat ∨ s.I.toNat + 3 ≤ a → t.mem.read a = s.mem.read a)) ∧
    (s.I.toNat + 2 > 4095 →
      exec (.ldB x) s = next { s with
        pc := s.pc - 2
        fault := some ⟨.memBounds, s.pc - 2, some (encode (.ldB x)), max s.I.toNat 4096⟩ })

/-- R156: V0 to Vx at I upwards; every other byte, I and the registers are unchanged. R203, the spec's decision D3: a range
that passes 4095 raises before any write. -/
def Obligations.StoreWritesVZeroToVx : Prop :=
  ∀ (x : Reg) (s : State), MemoryCanonical s →
    (s.I.toNat + x.val ≤ 4095 →
      ∃ t, exec (.ldStore x) s = next t ∧ t = { s with mem := t.mem } ∧
        (∀ r : Reg, r ≤ x → t.mem.read (s.I.toNat + r.val) = s.reg r) ∧
        (∀ a, a < s.I.toNat ∨ s.I.toNat + x.val + 1 ≤ a → t.mem.read a = s.mem.read a)) ∧
    (s.I.toNat + x.val > 4095 →
      exec (.ldStore x) s = next { s with
        pc := s.pc - 2
        fault := some ⟨.memBounds, s.pc - 2, some (encode (.ldStore x)), max s.I.toNat 4096⟩ })

/-- R157: V0 to Vx from I upwards; the other registers, I and memory are unchanged. R203, the spec's decision D3: a range
that passes 4095 raises before any write. -/
def Obligations.LoadReadsVZeroToVx : Prop :=
  ∀ (x : Reg) (s : State),
    (s.I.toNat + x.val ≤ 4095 →
      ∃ t, exec (.ldLoad x) s = next t ∧ t = { s with V := t.V } ∧
        ∀ r : Reg, t.reg r = if r ≤ x then s.mem.read (s.I.toNat + r.val) else s.reg r) ∧
    (s.I.toNat + x.val > 4095 →
      exec (.ldLoad x) s = next { s with
        pc := s.pc - 2
        fault := some ⟨.memBounds, s.pc - 2, some (encode (.ldLoad x)), max s.I.toNat 4096⟩ })

/-- R157 (its property, derived by the spec from R156 and R157): Fx65 restores what Fx55 stored, with the same I and x and
those bytes of memory untouched between. -/
def Obligations.LoadRestoresWhatStoreSaved : Prop :=
  ∀ (x : Reg) (s t u : State), MemoryCanonical s → s.I.toNat + x.val ≤ 4095 → exec (.ldStore x) s = next t →
    u.I = s.I → (∀ a, s.I.toNat ≤ a → a ≤ s.I.toNat + x.val → u.mem.read a = t.mem.read a) →
    ∃ w, exec (.ldLoad x) u = next w ∧ ∀ r : Reg, w.reg r = if r ≤ x then s.reg r else u.reg r

/-! ## Input and timers -/

/-- R171, R172: SKP and SKNP skip by the state of the key Vx names. R170, R208, the spec's decision D11: an index above 15
raises KEY_RANGE. -/
def Obligations.KeySkipsReadTheNamedKey : Prop :=
  ∀ (x : Reg) (s : State),
    (∀ k : Fin 16, (s.reg x).toNat = k.val →
      (∃ t, exec (.skp x) s = next t ∧ t = { s with pc := t.pc } ∧
        t.pc.toNat = if s.pressed k = true then (s.pc.toNat + 2) % 65536 else s.pc.toNat) ∧
      (∃ t, exec (.sknp x) s = next t ∧ t = { s with pc := t.pc } ∧
        t.pc.toNat = if s.pressed k = false then (s.pc.toNat + 2) % 65536 else s.pc.toNat)) ∧
    ((s.reg x).toNat > 15 →
      exec (.skp x) s = next { s with
        pc := s.pc - 2
        fault := some ⟨.keyRange, s.pc - 2, some (encode (.skp x)), (s.reg x).toNat⟩ } ∧
      exec (.sknp x) s = next { s with
        pc := s.pc - 2
        fault := some ⟨.keyRange, s.pc - 2, some (encode (.sknp x)), (s.reg x).toNat⟩ })

/-- Fx07 copies DT to Vx (R173), Fx15 copies Vx to DT (R175), and Fx18 copies Vx to ST (R176), which makes the sound output
(R216) true exactly when Vx is not 0. What TICKs then do to the timers is TicksCountDownToZero. -/
def Obligations.TimerTransfers : Prop :=
  ∀ (x : Reg) (s : State),
    (∃ t, exec (.ldVxDt x) s = next t ∧ t = { s with V := t.V } ∧ ∀ r, t.reg r = if r = x then s.DT else s.reg r) ∧
    (∃ t, exec (.ldDtVx x) s = next t ∧ t = { s with DT := s.reg x }) ∧
    (∃ t, exec (.ldStVx x) s = next t ∧ t = { s with ST := s.reg x } ∧ (soundActive t = true ↔ s.reg x ≠ 0))

/-- R174: the four cases of Fx0A. With nothing latched and no key pressed it executes again (the spec's decision D12); the
lowest pressed key is latched; while that key is held it executes again; its release stores its index, clears the latch
and goes on. -/
def Obligations.KeyWaitLatchesAndStores : Prop :=
  ∀ (x : Reg) (s : State),
    (s.wait = none → (∀ k, s.pressed k = false) →
      exec (.ldVxK x) s = next { s with pc := s.pc - 2 }) ∧
    (∀ k : Fin 16, s.wait = none → s.pressed k = true → (∀ j, j < k → s.pressed j = false) →
      exec (.ldVxK x) s = next { s with pc := s.pc - 2, wait := some k }) ∧
    (∀ k : Fin 16, s.wait = some k → s.pressed k = true →
      exec (.ldVxK x) s = next { s with pc := s.pc - 2 }) ∧
    (∀ k : Fin 16, s.wait = some k → s.pressed k = false →
      ∃ t, exec (.ldVxK x) s = next t ∧ t = { s with V := t.V, wait := none } ∧
        (t.reg x).toNat = k.val ∧ ∀ r, r ≠ x → t.reg r = s.reg r)

/-- R174, R238: at an Fx0A with nothing latched, pressing one key while the others are released, a STEP, releasing it and a
STEP complete the instruction with that key's index, with any number of TICKs before each STEP and between the STEP and
the release. The first STEP finds the key pressed, so the spec's decision D12 is not used. -/
def Obligations.PressAndReleaseCompleteTheKeyWait : Prop :=
  ∀ (x : Reg) (k : Fin 16) (l m n : Nat) (s : State), s.fault = none → s.wait = none → FetchesInstr s (.ldVxK x) →
    (∀ j, s.pressed j = false) →
    ∃ t, transactAll
        ([.key k.val true] ++ List.replicate l .tick ++ [.step] ++ List.replicate m .tick ++ [.key k.val false] ++
          List.replicate n .tick ++ [.step]) s = next t ∧
      (t.reg x).toNat = k.val ∧ t.wait = none ∧ t.pc = s.pc + 2 ∧ t.fault = none

/-! ## Invariants -/

/-- Every STEP keeps memory in its canonical form, so that equal memories are equal data. -/
def Obligations.StepKeepsMemoryCanonical : Prop :=
  ∀ s t : State, MemoryCanonical s → step s = next t → MemoryCanonical t

/-- R25, R111: every STEP keeps pc at most 0x10FE and every return address at most 0x1000. -/
def Obligations.StepKeepsPcBounded : Prop :=
  ∀ s t : State, PcBounded s → step s = next t → PcBounded t

/-- R32, R84, R174: after every STEP, a key is latched only while the core is at an Fx0A and not faulted, so that a wait is
always resumed by the instruction that began it. -/
def Obligations.StepKeepsWaitAtKeyWait : Prop :=
  ∀ s t : State, WaitsAtKeyWait s → step s = next t → WaitsAtKeyWait t

/-- R207, R211, the spec's decision D3: after every STEP, a fault record is the one the instruction at pc raises. -/
def Obligations.StepKeepsFaultReproducible : Prop :=
  ∀ s t : State, FaultReproducible s → step s = next t → FaultReproducible t

/-- The four invariants hold after reset. The values of `wait` and `fault` there are the spec's decision D3. -/
def Obligations.ResetMeetsTheInvariants : Prop :=
  MemoryCanonical State.reset ∧ PcBounded State.reset ∧ WaitsAtKeyWait State.reset ∧ FaultReproducible State.reset

/-- R222, R223, R224: TICK, KEY and CONSTRUCT keep each of the four invariants. -/
def Obligations.HostTransactionsKeepTheInvariants : Prop :=
  ∀ (tr : Transaction) (s t : State), tr ≠ .step → transact tr s = next t →
    (MemoryCanonical s → MemoryCanonical t) ∧ (PcBounded s → PcBounded t) ∧
    (WaitsAtKeyWait s → WaitsAtKeyWait t) ∧ (FaultReproducible s → FaultReproducible t)

/-! ## Host transactions, reset, outputs and stops -/

/-- R215, R222: TICK takes one from each timer that is not 0 and changes nothing else; repeated TICKs never go below 0. That
it acts in every state is the spec's decision D21. -/
def Obligations.TicksCountDownToZero : Prop :=
  ∀ (n : Nat) (s : State), ∃ t, transactAll (List.replicate n .tick) s = next t ∧
    t.DT.toNat = s.DT.toNat - n ∧ t.ST.toNat = s.ST.toNat - n ∧ t = { s with DT := t.DT, ST := t.ST }

/-- R223, the spec's decision D22: KEY sets one key and changes nothing else; an index above 15 is refused. -/
def Obligations.KeySetsOneKey : Prop :=
  ∀ (k : Nat) (b : Bool) (s : State),
    (k ≤ 15 → ∃ t, keyEvent k b s = next t ∧ t = { s with key := t.key } ∧
      ∀ j : Fin 16, t.pressed j = if j.val = k then b else s.pressed j) ∧
    (k > 15 → keyEvent k b s = refused .keyIndexOutOfRange)

/-- R224, R230, the spec's decisions D3 and D13: CONSTRUCT with an image of at most 3584 bytes leaves the font, the image and
the fill in memory and every other element as reset leaves it, a fault of before included; a longer image is refused.
The count of draws is the model's own (log entry 3). -/
def Obligations.ConstructBuildsTheStartState : Prop :=
  ∀ (font memInit : Nat → Byte) (image : List Byte) (s : State),
    (image.length ≤ 3584 → ∃ t, construct font memInit image s = next t ∧
      (∀ a, a < 80 → t.mem.read a = font a) ∧
      (∀ a (h : a < image.length), t.mem.read (512 + a) = image[a]) ∧
      (∀ a, 80 ≤ a → a < 4096 → (a < 512 ∨ 512 + image.length ≤ a) → t.mem.read a = memInit a) ∧
      t = { State.reset with mem := t.mem, draws := s.draws }) ∧
    (image.length > 3584 → construct font memInit image s = refused .loadTooLarge)

/-- R20, R230: registers, index, stack, timers, display and keys zeroed, pc at 0x200, nothing waiting and no fault (the last
two by the spec's decision D3). Memory: the default font, whose 80 bytes are R232's table (log entry 2, PRESUMED; D14),
elsewhere zero (log entry 1, the model's choice; D13); and CONSTRUCT with that font, that fill and an empty image gives this state. -/
def Obligations.ResetState : Prop :=
  (∀ r, State.reset.reg r = 0) ∧ State.reset.I = 0 ∧ State.reset.pc = 0x200 ∧ State.reset.sp = 0 ∧
  (∀ k : Fin 16, State.reset.stack[k.val] = 0) ∧ State.reset.DT = 0 ∧ State.reset.ST = 0 ∧
  (∀ px py, px < 64 → py < 32 → State.reset.cell px py = false) ∧ (∀ k, State.reset.pressed k = false) ∧
  State.reset.wait = none ∧ State.reset.fault = none ∧
  (List.range 80).map State.reset.mem.read =
    [0xF0, 0x90, 0x90, 0x90, 0xF0] ++ [0x20, 0x60, 0x20, 0x20, 0x70] ++ [0xF0, 0x10, 0xF0, 0x80, 0xF0] ++
    [0xF0, 0x10, 0xF0, 0x10, 0xF0] ++ [0x90, 0x90, 0xF0, 0x10, 0x10] ++ [0xF0, 0x80, 0xF0, 0x10, 0xF0] ++
    [0xF0, 0x80, 0xF0, 0x90, 0xF0] ++ [0xF0, 0x10, 0x20, 0x40, 0x40] ++ [0xF0, 0x90, 0xF0, 0x90, 0xF0] ++
    [0xF0, 0x90, 0xF0, 0x10, 0xF0] ++ [0xF0, 0x90, 0xF0, 0x90, 0x90] ++ [0xE0, 0x90, 0xE0, 0x90, 0xE0] ++
    [0xF0, 0x80, 0x80, 0x80, 0xF0] ++ [0xE0, 0x90, 0x90, 0x90, 0xE0] ++ [0xF0, 0x80, 0xF0, 0x80, 0xF0] ++
    [0xF0, 0x80, 0xF0, 0x80, 0x80] ∧
  (∀ a, 80 ≤ a → State.reset.mem.read a = 0) ∧ (∀ a, a < 80 → State.reset.mem.read a = Config.font a) ∧
  construct Config.font (fun _ => 0) [] State.reset = next State.reset

/-- R216, R217: the outputs are read off the state: the sound output is true iff ST is not 0, and the display output is
the 2048 cells in the order of their indices (R31). -/
def Obligations.OutputsShowTheState : Prop :=
  ∀ s : State, (soundActive s = true ↔ 0 < s.ST.toNat) ∧ (displayOutput s).length = 2048 ∧
    (∀ px py, px < 64 → py < 32 → (displayOutput s)[px + py * 64]? = some (s.cell px py))

/-- R112, R241, the spec's decision D28: at a jump to itself every STEP, and so every run of STEPs, leaves the state
unchanged. -/
def Obligations.IdleLoopIsAFixpoint : Prop :=
  ∀ (s : State) (n : Nat), IdleLoop s → transactAll (List.replicate n .step) s = next s
end

