-- ==== Sys2Proof/Laws/Memory.lean ====
section
/-! SUPPORT. What the memory operations do: a read after a write, and that each keeps the canonical form. -/

namespace Sys2Proof.Machine.Memory

@[simp] theorem read_nil (a : Nat) : read [] a = unlisted a := rfl

/-- In a list whose addresses start at `lo`, a lower address is unlisted. -/
theorem read_below {m : Memory} {lo a : Nat} (h : wfFrom lo m = true) (ha : a < lo) : read m a = unlisted a := by
  induction m generalizing lo with
  | nil => rfl
  | cons c m ih =>
    obtain ⟨b, w⟩ := c
    simp only [wfFrom, Bool.and_eq_true, decide_eq_true_eq] at h
    simp only [read]
    rw [if_neg (by omega)]
    exact ih h.2 (by omega)

theorem wfFrom_weaken {m : Memory} {lo lo' : Nat} (h : wfFrom lo m = true) (hl : lo' ≤ lo) : wfFrom lo' m = true := by
  cases m with
  | nil => rfl
  | cons c m =>
    simp only [wfFrom, Bool.and_eq_true, decide_eq_true_eq] at h ⊢
    exact ⟨⟨⟨by omega, h.1.1.2⟩, h.1.2⟩, h.2⟩

theorem wfFrom_consCell {m : Memory} {lo a : Nat} (v : Byte) (h : wfFrom (a + 1) m = true) (hl : lo ≤ a) (ha : a < 4096) :
    wfFrom lo (consCell a v m) = true := by
  unfold consCell
  split
  · exact wfFrom_weaken h (by omega)
  · rename_i hv
    simp [wfFrom, h, hl, ha, hv]

theorem read_consCell_of_wf {m : Memory} {a : Nat} (v : Byte) (h : wfFrom (a + 1) m = true) (b : Nat) :
    read (consCell a v m) b = if b = a then v else read m b := by
  unfold consCell
  split
  · rename_i hv
    by_cases e : b = a
    · subst e; simp [hv, read_below h (Nat.lt_succ_self b)]
    · simp [e]
  · simp [read]

/-- A write keeps the canonical form. -/
theorem wfFrom_write {m : Memory} {lo a : Nat} (v : Byte) (h : wfFrom lo m = true) (hl : lo ≤ a) (ha : a < 4096) :
    wfFrom lo (write m a v) = true := by
  induction m generalizing lo with
  | nil => exact wfFrom_consCell v rfl hl ha
  | cons c m ih =>
    obtain ⟨b, w⟩ := c
    have h' := h
    simp only [wfFrom, Bool.and_eq_true, decide_eq_true_eq] at h
    simp only [write]
    split
    · rename_i hlt
      refine wfFrom_consCell v ?_ hl ha
      simp only [wfFrom, Bool.and_eq_true, decide_eq_true_eq]
      exact ⟨⟨⟨by omega, h.1.1.2⟩, h.1.2⟩, h.2⟩
    · split
      · rename_i he
        subst he
        exact wfFrom_consCell v h.2 hl ha
      · simp only [wfFrom, Bool.and_eq_true, decide_eq_true_eq]
        exact ⟨⟨⟨h.1.1.1, h.1.1.2⟩, h.1.2⟩, ih h.2 (by omega)⟩

theorem wf_write {m : Memory} {a : Nat} (v : Byte) (h : m.wf = true) (ha : a < 4096) : (m.write a v).wf = true :=
  wfFrom_write v h (Nat.zero_le a) ha

/-- A read after a write, in a list in canonical form. -/
theorem read_write_of_wfFrom {m : Memory} {lo : Nat} (a : Nat) (v : Byte) (h : wfFrom lo m = true) (b : Nat) :
    read (write m a v) b = if b = a then v else read m b := by
  induction m generalizing lo with
  | nil => exact read_consCell_of_wf v rfl b
  | cons c m ih =>
    obtain ⟨d, w⟩ := c
    have h' := h
    simp only [wfFrom, Bool.and_eq_true, decide_eq_true_eq] at h
    simp only [write]
    split
    · rename_i hlt
      refine read_consCell_of_wf v ?_ b
      simp only [wfFrom, Bool.and_eq_true, decide_eq_true_eq]
      exact ⟨⟨⟨by omega, h.1.1.2⟩, h.1.2⟩, h.2⟩
    · split
      · rename_i he
        subst he
        rw [read_consCell_of_wf v h.2 b]
        by_cases e : b = a <;> simp [read, e]
      · rename_i hne
        simp only [read]
        by_cases e : b = d
        · subst e; simp [Ne.symm hne]
        · simp only [e, if_false]; exact ih h.2

/-- The byte read after a write: the written one at its address, the old one elsewhere. -/
theorem read_write {m : Memory} (h : m.wf = true) (a : Nat) (v : Byte) (b : Nat) :
    read (write m a v) b = if b = a then v else read m b := read_write_of_wfFrom a v h b

/-- Writing several bytes keeps the canonical form. -/
theorem wf_writeMany {m : Memory} {base : Nat} {vs : List Byte} (h : m.wf = true) (hb : base + vs.length ≤ 4096) :
    (m.writeMany base vs).wf = true := by
  induction vs generalizing m base with
  | nil => exact h
  | cons v vs ih =>
    simp only [List.length_cons] at hb
    exact ih (wf_write v h (by omega)) (by omega)

/-- The bytes read after writing several. -/
theorem read_writeMany {m : Memory} {base : Nat} {vs : List Byte} (h : m.wf = true) (hb : base + vs.length ≤ 4096) (b : Nat) :
    (m.writeMany base vs).read b =
      if base ≤ b ∧ b < base + vs.length then vs.getD (b - base) 0 else m.read b := by
  induction vs generalizing m base with
  | nil => simp [writeMany, show ¬ (base ≤ b ∧ b < base) by omega]
  | cons v vs ih =>
    simp only [List.length_cons] at hb ⊢
    rw [writeMany, ih (wf_write v h (by omega)) (by omega), read_write h]
    by_cases h1 : base + 1 ≤ b ∧ b < base + 1 + vs.length
    · obtain ⟨k, rfl⟩ : ∃ k, b = base + (k + 1) := ⟨b - base - 1, by omega⟩
      rw [if_pos h1, if_pos (by omega), show base + (k + 1) - (base + 1) = k by omega,
        show base + (k + 1) - base = k + 1 by omega]
      simp
    · rw [if_neg h1]
      by_cases h2 : b = base
      · subst h2; simp
      · rw [if_neg h2, if_neg (by omega)]

/-- The canonical memory with given bytes, up to address `n`. -/
theorem ofBytes_from (f : Nat → Byte) (n k : Nat) (hk : n + k ≤ 4096) :
    wfFrom n ((List.range' n k).foldr (fun a m => consCell a (f a) m) []) = true ∧
    ∀ b, read ((List.range' n k).foldr (fun a m => consCell a (f a) m) []) b =
      if n ≤ b ∧ b < n + k then f b else unlisted b := by
  induction k generalizing n with
  | zero => exact ⟨rfl, fun b => by simp [show ¬ (n ≤ b ∧ b < n) by omega]⟩
  | succ k ih =>
    obtain ⟨hw, hr⟩ := ih (n + 1) (by omega)
    simp only [List.range'_succ, List.foldr_cons]
    refine ⟨wfFrom_consCell _ hw (Nat.le_refl n) (by omega), fun b => ?_⟩
    rw [read_consCell_of_wf _ hw, hr]
    by_cases e : b = n
    · subst e; simp
    · rw [if_neg e]
      by_cases h2 : n + 1 ≤ b ∧ b < n + 1 + k
      · rw [if_pos h2, if_pos (by omega)]
      · rw [if_neg h2, if_neg (by omega)]

theorem wf_ofBytes (f : Nat → Byte) : (ofBytes f).wf = true := by
  simpa [ofBytes, wf, List.range_eq_range'] using (ofBytes_from f 0 4096 (by omega)).1

theorem read_ofBytes (f : Nat → Byte) {b : Nat} (hb : b < 4096) : (ofBytes f).read b = f b := by
  have := (ofBytes_from f 0 4096 (by omega)).2 b
  simpa [ofBytes, List.range_eq_range', hb] using this

/-- Memories in canonical form that read alike are the same list. -/
theorem eq_of_read {m m' : Memory} {lo : Nat} (h : wfFrom lo m = true) (h' : wfFrom lo m' = true)
    (hr : ∀ b, read m b = read m' b) : m = m' := by
  induction m generalizing m' lo with
  | nil =>
    cases m' with
    | nil => rfl
    | cons c m' =>
      obtain ⟨b, w⟩ := c
      simp only [wfFrom, Bool.and_eq_true, decide_eq_true_eq, bne_iff_ne] at h'
      have := hr b
      simp only [read, if_true] at this
      exact absurd this.symm h'.1.2
  | cons c m ih =>
    obtain ⟨b, w⟩ := c
    have hc := h
    simp only [wfFrom, Bool.and_eq_true, decide_eq_true_eq, bne_iff_ne] at h
    cases m' with
    | nil =>
      have := hr b
      simp only [read, if_true] at this
      exact absurd this h.1.2
    | cons c' m' =>
      obtain ⟨b', w'⟩ := c'
      have hc' := h'
      simp only [wfFrom, Bool.and_eq_true, decide_eq_true_eq, bne_iff_ne] at h'
      have hb : b = b' := by
        rcases Nat.lt_trichotomy b b' with e | e | e
        · have := hr b
          simp only [read, if_true, if_neg (Nat.ne_of_lt e)] at this
          rw [read_below h'.2 (by omega)] at this
          exact absurd this h.1.2
        · exact e
        · have := hr b'
          simp only [read, if_true, if_neg (Nat.ne_of_lt e)] at this
          rw [read_below h.2 (by omega)] at this
          exact absurd this.symm h'.1.2
      subst hb
      have hw : w = w' := by simpa [read] using hr b
      subst hw
      congr 1
      refine ih h.2 h'.2 fun a => ?_
      by_cases e : a = b
      · subst e; rw [read_below h.2 (by omega), read_below h'.2 (by omega)]
      · simpa [read, e] using hr a

end Sys2Proof.Machine.Memory
end

