-- ==== Sys2Proof/Laws/State.lean ====
section
/-! SUPPORT. One lemma per field of State and update of it, and one per accessor: later proofs never unfold a record update. -/

namespace Sys2Proof.Machine

variable (s : State)

/-! ## setReg -/

@[simp] theorem setReg_V (r : Reg) (v : Byte) : (s.setReg r v).V = s.V.set r.val v := rfl
@[simp] theorem setReg_I (r : Reg) (v : Byte) : (s.setReg r v).I = s.I := rfl
@[simp] theorem setReg_pc (r : Reg) (v : Byte) : (s.setReg r v).pc = s.pc := rfl
@[simp] theorem setReg_sp (r : Reg) (v : Byte) : (s.setReg r v).sp = s.sp := rfl
@[simp] theorem setReg_stack (r : Reg) (v : Byte) : (s.setReg r v).stack = s.stack := rfl
@[simp] theorem setReg_DT (r : Reg) (v : Byte) : (s.setReg r v).DT = s.DT := rfl
@[simp] theorem setReg_ST (r : Reg) (v : Byte) : (s.setReg r v).ST = s.ST := rfl
@[simp] theorem setReg_mem (r : Reg) (v : Byte) : (s.setReg r v).mem = s.mem := rfl
@[simp] theorem setReg_disp (r : Reg) (v : Byte) : (s.setReg r v).disp = s.disp := rfl
@[simp] theorem setReg_key (r : Reg) (v : Byte) : (s.setReg r v).key = s.key := rfl
@[simp] theorem setReg_wait (r : Reg) (v : Byte) : (s.setReg r v).wait = s.wait := rfl
@[simp] theorem setReg_fault (r : Reg) (v : Byte) : (s.setReg r v).fault = s.fault := rfl
@[simp] theorem setReg_draws (r : Reg) (v : Byte) : (s.setReg r v).draws = s.draws := rfl
@[simp] theorem setReg_cell (r : Reg) (v : Byte) (px py : Nat) : (s.setReg r v).cell px py = s.cell px py := rfl
@[simp] theorem setReg_pressed (r : Reg) (v : Byte) (j : Fin 16) : (s.setReg r v).pressed j = s.pressed j := rfl

/-! ## setI -/

@[simp] theorem setI_V (w : Word) : (s.setI w).V = s.V := rfl
@[simp] theorem setI_I (w : Word) : (s.setI w).I = w := rfl
@[simp] theorem setI_pc (w : Word) : (s.setI w).pc = s.pc := rfl
@[simp] theorem setI_sp (w : Word) : (s.setI w).sp = s.sp := rfl
@[simp] theorem setI_stack (w : Word) : (s.setI w).stack = s.stack := rfl
@[simp] theorem setI_DT (w : Word) : (s.setI w).DT = s.DT := rfl
@[simp] theorem setI_ST (w : Word) : (s.setI w).ST = s.ST := rfl
@[simp] theorem setI_mem (w : Word) : (s.setI w).mem = s.mem := rfl
@[simp] theorem setI_disp (w : Word) : (s.setI w).disp = s.disp := rfl
@[simp] theorem setI_key (w : Word) : (s.setI w).key = s.key := rfl
@[simp] theorem setI_wait (w : Word) : (s.setI w).wait = s.wait := rfl
@[simp] theorem setI_fault (w : Word) : (s.setI w).fault = s.fault := rfl
@[simp] theorem setI_draws (w : Word) : (s.setI w).draws = s.draws := rfl
@[simp] theorem setI_reg (w : Word) (q : Reg) : (s.setI w).reg q = s.reg q := rfl
@[simp] theorem setI_cell (w : Word) (px py : Nat) : (s.setI w).cell px py = s.cell px py := rfl
@[simp] theorem setI_pressed (w : Word) (j : Fin 16) : (s.setI w).pressed j = s.pressed j := rfl

/-! ## setPc -/

@[simp] theorem setPc_V (w : Word) : (s.setPc w).V = s.V := rfl
@[simp] theorem setPc_I (w : Word) : (s.setPc w).I = s.I := rfl
@[simp] theorem setPc_pc (w : Word) : (s.setPc w).pc = w := rfl
@[simp] theorem setPc_sp (w : Word) : (s.setPc w).sp = s.sp := rfl
@[simp] theorem setPc_stack (w : Word) : (s.setPc w).stack = s.stack := rfl
@[simp] theorem setPc_DT (w : Word) : (s.setPc w).DT = s.DT := rfl
@[simp] theorem setPc_ST (w : Word) : (s.setPc w).ST = s.ST := rfl
@[simp] theorem setPc_mem (w : Word) : (s.setPc w).mem = s.mem := rfl
@[simp] theorem setPc_disp (w : Word) : (s.setPc w).disp = s.disp := rfl
@[simp] theorem setPc_key (w : Word) : (s.setPc w).key = s.key := rfl
@[simp] theorem setPc_wait (w : Word) : (s.setPc w).wait = s.wait := rfl
@[simp] theorem setPc_fault (w : Word) : (s.setPc w).fault = s.fault := rfl
@[simp] theorem setPc_draws (w : Word) : (s.setPc w).draws = s.draws := rfl
@[simp] theorem setPc_reg (w : Word) (q : Reg) : (s.setPc w).reg q = s.reg q := rfl
@[simp] theorem setPc_cell (w : Word) (px py : Nat) : (s.setPc w).cell px py = s.cell px py := rfl
@[simp] theorem setPc_pressed (w : Word) (j : Fin 16) : (s.setPc w).pressed j = s.pressed j := rfl

/-! ## setDT -/

@[simp] theorem setDT_V (b : Byte) : (s.setDT b).V = s.V := rfl
@[simp] theorem setDT_I (b : Byte) : (s.setDT b).I = s.I := rfl
@[simp] theorem setDT_pc (b : Byte) : (s.setDT b).pc = s.pc := rfl
@[simp] theorem setDT_sp (b : Byte) : (s.setDT b).sp = s.sp := rfl
@[simp] theorem setDT_stack (b : Byte) : (s.setDT b).stack = s.stack := rfl
@[simp] theorem setDT_DT (b : Byte) : (s.setDT b).DT = b := rfl
@[simp] theorem setDT_ST (b : Byte) : (s.setDT b).ST = s.ST := rfl
@[simp] theorem setDT_mem (b : Byte) : (s.setDT b).mem = s.mem := rfl
@[simp] theorem setDT_disp (b : Byte) : (s.setDT b).disp = s.disp := rfl
@[simp] theorem setDT_key (b : Byte) : (s.setDT b).key = s.key := rfl
@[simp] theorem setDT_wait (b : Byte) : (s.setDT b).wait = s.wait := rfl
@[simp] theorem setDT_fault (b : Byte) : (s.setDT b).fault = s.fault := rfl
@[simp] theorem setDT_draws (b : Byte) : (s.setDT b).draws = s.draws := rfl
@[simp] theorem setDT_reg (b : Byte) (q : Reg) : (s.setDT b).reg q = s.reg q := rfl
@[simp] theorem setDT_cell (b : Byte) (px py : Nat) : (s.setDT b).cell px py = s.cell px py := rfl
@[simp] theorem setDT_pressed (b : Byte) (j : Fin 16) : (s.setDT b).pressed j = s.pressed j := rfl

/-! ## setST -/

@[simp] theorem setST_V (b : Byte) : (s.setST b).V = s.V := rfl
@[simp] theorem setST_I (b : Byte) : (s.setST b).I = s.I := rfl
@[simp] theorem setST_pc (b : Byte) : (s.setST b).pc = s.pc := rfl
@[simp] theorem setST_sp (b : Byte) : (s.setST b).sp = s.sp := rfl
@[simp] theorem setST_stack (b : Byte) : (s.setST b).stack = s.stack := rfl
@[simp] theorem setST_DT (b : Byte) : (s.setST b).DT = s.DT := rfl
@[simp] theorem setST_ST (b : Byte) : (s.setST b).ST = b := rfl
@[simp] theorem setST_mem (b : Byte) : (s.setST b).mem = s.mem := rfl
@[simp] theorem setST_disp (b : Byte) : (s.setST b).disp = s.disp := rfl
@[simp] theorem setST_key (b : Byte) : (s.setST b).key = s.key := rfl
@[simp] theorem setST_wait (b : Byte) : (s.setST b).wait = s.wait := rfl
@[simp] theorem setST_fault (b : Byte) : (s.setST b).fault = s.fault := rfl
@[simp] theorem setST_draws (b : Byte) : (s.setST b).draws = s.draws := rfl
@[simp] theorem setST_reg (b : Byte) (q : Reg) : (s.setST b).reg q = s.reg q := rfl
@[simp] theorem setST_cell (b : Byte) (px py : Nat) : (s.setST b).cell px py = s.cell px py := rfl
@[simp] theorem setST_pressed (b : Byte) (j : Fin 16) : (s.setST b).pressed j = s.pressed j := rfl

/-! ## setWait -/

@[simp] theorem setWait_V (k : Option (Fin 16)) : (s.setWait k).V = s.V := rfl
@[simp] theorem setWait_I (k : Option (Fin 16)) : (s.setWait k).I = s.I := rfl
@[simp] theorem setWait_pc (k : Option (Fin 16)) : (s.setWait k).pc = s.pc := rfl
@[simp] theorem setWait_sp (k : Option (Fin 16)) : (s.setWait k).sp = s.sp := rfl
@[simp] theorem setWait_stack (k : Option (Fin 16)) : (s.setWait k).stack = s.stack := rfl
@[simp] theorem setWait_DT (k : Option (Fin 16)) : (s.setWait k).DT = s.DT := rfl
@[simp] theorem setWait_ST (k : Option (Fin 16)) : (s.setWait k).ST = s.ST := rfl
@[simp] theorem setWait_mem (k : Option (Fin 16)) : (s.setWait k).mem = s.mem := rfl
@[simp] theorem setWait_disp (k : Option (Fin 16)) : (s.setWait k).disp = s.disp := rfl
@[simp] theorem setWait_key (k : Option (Fin 16)) : (s.setWait k).key = s.key := rfl
@[simp] theorem setWait_wait (k : Option (Fin 16)) : (s.setWait k).wait = k := rfl
@[simp] theorem setWait_fault (k : Option (Fin 16)) : (s.setWait k).fault = s.fault := rfl
@[simp] theorem setWait_draws (k : Option (Fin 16)) : (s.setWait k).draws = s.draws := rfl
@[simp] theorem setWait_reg (k : Option (Fin 16)) (q : Reg) : (s.setWait k).reg q = s.reg q := rfl
@[simp] theorem setWait_cell (k : Option (Fin 16)) (px py : Nat) : (s.setWait k).cell px py = s.cell px py := rfl
@[simp] theorem setWait_pressed (k : Option (Fin 16)) (j : Fin 16) : (s.setWait k).pressed j = s.pressed j := rfl

/-! ## setByte -/

@[simp] theorem setByte_V (a : Nat) (v : Byte) : (s.setByte a v).V = s.V := rfl
@[simp] theorem setByte_I (a : Nat) (v : Byte) : (s.setByte a v).I = s.I := rfl
@[simp] theorem setByte_pc (a : Nat) (v : Byte) : (s.setByte a v).pc = s.pc := rfl
@[simp] theorem setByte_sp (a : Nat) (v : Byte) : (s.setByte a v).sp = s.sp := rfl
@[simp] theorem setByte_stack (a : Nat) (v : Byte) : (s.setByte a v).stack = s.stack := rfl
@[simp] theorem setByte_DT (a : Nat) (v : Byte) : (s.setByte a v).DT = s.DT := rfl
@[simp] theorem setByte_ST (a : Nat) (v : Byte) : (s.setByte a v).ST = s.ST := rfl
@[simp] theorem setByte_mem (a : Nat) (v : Byte) : (s.setByte a v).mem = s.mem.write a v := rfl
@[simp] theorem setByte_disp (a : Nat) (v : Byte) : (s.setByte a v).disp = s.disp := rfl
@[simp] theorem setByte_key (a : Nat) (v : Byte) : (s.setByte a v).key = s.key := rfl
@[simp] theorem setByte_wait (a : Nat) (v : Byte) : (s.setByte a v).wait = s.wait := rfl
@[simp] theorem setByte_fault (a : Nat) (v : Byte) : (s.setByte a v).fault = s.fault := rfl
@[simp] theorem setByte_draws (a : Nat) (v : Byte) : (s.setByte a v).draws = s.draws := rfl
@[simp] theorem setByte_reg (a : Nat) (v : Byte) (q : Reg) : (s.setByte a v).reg q = s.reg q := rfl
@[simp] theorem setByte_cell (a : Nat) (v : Byte) (px py : Nat) : (s.setByte a v).cell px py = s.cell px py := rfl
@[simp] theorem setByte_pressed (a : Nat) (v : Byte) (j : Fin 16) : (s.setByte a v).pressed j = s.pressed j := rfl

/-! ## clearDisplay -/

@[simp] theorem clearDisplay_V : (s.clearDisplay).V = s.V := rfl
@[simp] theorem clearDisplay_I : (s.clearDisplay).I = s.I := rfl
@[simp] theorem clearDisplay_pc : (s.clearDisplay).pc = s.pc := rfl
@[simp] theorem clearDisplay_sp : (s.clearDisplay).sp = s.sp := rfl
@[simp] theorem clearDisplay_stack : (s.clearDisplay).stack = s.stack := rfl
@[simp] theorem clearDisplay_DT : (s.clearDisplay).DT = s.DT := rfl
@[simp] theorem clearDisplay_ST : (s.clearDisplay).ST = s.ST := rfl
@[simp] theorem clearDisplay_mem : (s.clearDisplay).mem = s.mem := rfl
@[simp] theorem clearDisplay_disp : (s.clearDisplay).disp = Vector.replicate 32 (Vector.replicate 64 false) := rfl
@[simp] theorem clearDisplay_key : (s.clearDisplay).key = s.key := rfl
@[simp] theorem clearDisplay_wait : (s.clearDisplay).wait = s.wait := rfl
@[simp] theorem clearDisplay_fault : (s.clearDisplay).fault = s.fault := rfl
@[simp] theorem clearDisplay_draws : (s.clearDisplay).draws = s.draws := rfl
@[simp] theorem clearDisplay_reg (q : Reg) : (s.clearDisplay).reg q = s.reg q := rfl
@[simp] theorem clearDisplay_pressed (j : Fin 16) : (s.clearDisplay).pressed j = s.pressed j := rfl

/-! ## countDraw -/

@[simp] theorem countDraw_V : (s.countDraw).V = s.V := rfl
@[simp] theorem countDraw_I : (s.countDraw).I = s.I := rfl
@[simp] theorem countDraw_pc : (s.countDraw).pc = s.pc := rfl
@[simp] theorem countDraw_sp : (s.countDraw).sp = s.sp := rfl
@[simp] theorem countDraw_stack : (s.countDraw).stack = s.stack := rfl
@[simp] theorem countDraw_DT : (s.countDraw).DT = s.DT := rfl
@[simp] theorem countDraw_ST : (s.countDraw).ST = s.ST := rfl
@[simp] theorem countDraw_mem : (s.countDraw).mem = s.mem := rfl
@[simp] theorem countDraw_disp : (s.countDraw).disp = s.disp := rfl
@[simp] theorem countDraw_key : (s.countDraw).key = s.key := rfl
@[simp] theorem countDraw_wait : (s.countDraw).wait = s.wait := rfl
@[simp] theorem countDraw_fault : (s.countDraw).fault = s.fault := rfl
@[simp] theorem countDraw_draws : (s.countDraw).draws = s.draws + 1 := rfl
@[simp] theorem countDraw_reg (q : Reg) : (s.countDraw).reg q = s.reg q := rfl
@[simp] theorem countDraw_cell (px py : Nat) : (s.countDraw).cell px py = s.cell px py := rfl
@[simp] theorem countDraw_pressed (j : Fin 16) : (s.countDraw).pressed j = s.pressed j := rfl

/-! ## raiseAt -/

@[simp] theorem raiseAt_V (a : Word) (op : Option Word) (f : FaultKind) (n : Nat) : (raiseAt a op f n s).V = s.V := rfl
@[simp] theorem raiseAt_I (a : Word) (op : Option Word) (f : FaultKind) (n : Nat) : (raiseAt a op f n s).I = s.I := rfl
@[simp] theorem raiseAt_pc (a : Word) (op : Option Word) (f : FaultKind) (n : Nat) : (raiseAt a op f n s).pc = a := rfl
@[simp] theorem raiseAt_sp (a : Word) (op : Option Word) (f : FaultKind) (n : Nat) : (raiseAt a op f n s).sp = s.sp := rfl
@[simp] theorem raiseAt_stack (a : Word) (op : Option Word) (f : FaultKind) (n : Nat) : (raiseAt a op f n s).stack = s.stack := rfl
@[simp] theorem raiseAt_DT (a : Word) (op : Option Word) (f : FaultKind) (n : Nat) : (raiseAt a op f n s).DT = s.DT := rfl
@[simp] theorem raiseAt_ST (a : Word) (op : Option Word) (f : FaultKind) (n : Nat) : (raiseAt a op f n s).ST = s.ST := rfl
@[simp] theorem raiseAt_mem (a : Word) (op : Option Word) (f : FaultKind) (n : Nat) : (raiseAt a op f n s).mem = s.mem := rfl
@[simp] theorem raiseAt_disp (a : Word) (op : Option Word) (f : FaultKind) (n : Nat) : (raiseAt a op f n s).disp = s.disp := rfl
@[simp] theorem raiseAt_key (a : Word) (op : Option Word) (f : FaultKind) (n : Nat) : (raiseAt a op f n s).key = s.key := rfl
@[simp] theorem raiseAt_wait (a : Word) (op : Option Word) (f : FaultKind) (n : Nat) : (raiseAt a op f n s).wait = s.wait := rfl
@[simp] theorem raiseAt_fault (a : Word) (op : Option Word) (f : FaultKind) (n : Nat) : (raiseAt a op f n s).fault = some ⟨f, a, op, n⟩ := rfl
@[simp] theorem raiseAt_draws (a : Word) (op : Option Word) (f : FaultKind) (n : Nat) : (raiseAt a op f n s).draws = s.draws := rfl
@[simp] theorem raiseAt_reg (a : Word) (op : Option Word) (f : FaultKind) (n : Nat) (q : Reg) : (raiseAt a op f n s).reg q = s.reg q := rfl
@[simp] theorem raiseAt_cell (a : Word) (op : Option Word) (f : FaultKind) (n : Nat) (px py : Nat) : (raiseAt a op f n s).cell px py = s.cell px py := rfl
@[simp] theorem raiseAt_pressed (a : Word) (op : Option Word) (f : FaultKind) (n : Nat) (j : Fin 16) : (raiseAt a op f n s).pressed j = s.pressed j := rfl

/-! ## setCell -/

@[simp] theorem setCell_V (px py : Nat) (b : Bool) : (s.setCell px py b).V = s.V := by
  unfold State.setCell; split <;> rfl
@[simp] theorem setCell_I (px py : Nat) (b : Bool) : (s.setCell px py b).I = s.I := by
  unfold State.setCell; split <;> rfl
@[simp] theorem setCell_pc (px py : Nat) (b : Bool) : (s.setCell px py b).pc = s.pc := by
  unfold State.setCell; split <;> rfl
@[simp] theorem setCell_sp (px py : Nat) (b : Bool) : (s.setCell px py b).sp = s.sp := by
  unfold State.setCell; split <;> rfl
@[simp] theorem setCell_stack (px py : Nat) (b : Bool) : (s.setCell px py b).stack = s.stack := by
  unfold State.setCell; split <;> rfl
@[simp] theorem setCell_DT (px py : Nat) (b : Bool) : (s.setCell px py b).DT = s.DT := by
  unfold State.setCell; split <;> rfl
@[simp] theorem setCell_ST (px py : Nat) (b : Bool) : (s.setCell px py b).ST = s.ST := by
  unfold State.setCell; split <;> rfl
@[simp] theorem setCell_mem (px py : Nat) (b : Bool) : (s.setCell px py b).mem = s.mem := by
  unfold State.setCell; split <;> rfl
@[simp] theorem setCell_key (px py : Nat) (b : Bool) : (s.setCell px py b).key = s.key := by
  unfold State.setCell; split <;> rfl
@[simp] theorem setCell_wait (px py : Nat) (b : Bool) : (s.setCell px py b).wait = s.wait := by
  unfold State.setCell; split <;> rfl
@[simp] theorem setCell_fault (px py : Nat) (b : Bool) : (s.setCell px py b).fault = s.fault := by
  unfold State.setCell; split <;> rfl
@[simp] theorem setCell_draws (px py : Nat) (b : Bool) : (s.setCell px py b).draws = s.draws := by
  unfold State.setCell; split <;> rfl
@[simp] theorem setCell_reg (px py : Nat) (b : Bool) (q : Reg) : (s.setCell px py b).reg q = s.reg q := by
  unfold State.setCell; split <;> rfl

/-! ## Accessors of what was just written -/

@[simp] theorem setReg_reg (r : Reg) (v : Byte) (q : Reg) : (s.setReg r v).reg q = if q = r then v else s.reg q := by
  simp only [State.reg, State.setReg, Vector.getElem_set]
  by_cases h : q = r
  · simp [h]
  · rw [if_neg h, if_neg fun e => h (Fin.ext e.symm)]

@[simp] theorem clearDisplay_cell (px py : Nat) : s.clearDisplay.cell px py = false := by
  simp [State.cell, State.clearDisplay]

/-- A cell after `setCell` on the screen: the written one or the old one. -/
theorem setCell_cell {px py : Nat} (hx : px < 64) (hy : py < 32) (b : Bool) (qx qy : Nat) :
    (s.setCell px py b).cell qx qy = if qx = px ∧ qy = py then b else s.cell qx qy := by
  rw [show s.setCell px py b = { s with disp := s.disp.set py (s.disp[py].set px b) } from dif_pos ⟨hy, hx⟩]
  unfold State.cell
  by_cases h : qy < 32 ∧ qx < 64
  · simp only [dif_pos h, Vector.getElem_set]
    by_cases e : py = qy
    · subst e
      by_cases e' : px = qx
      · simp [e']
      · simp [Ne.symm e', e']
    · simp [e, Ne.symm e]
  · simp only [dif_neg h]
    rw [if_neg fun e => h (by omega)]

/-- A place off the screen is no cell. -/
theorem cell_offscreen {px py : Nat} (h : ¬ (py < 32 ∧ px < 64)) : s.cell px py = false := by
  simp [State.cell, h]

/-! ## Updates that are one of those above -/

@[simp] theorem advance_eq : s.advance = s.setPc (s.pc + 2) := rfl

@[simp] theorem regress_eq : s.regress = s.setPc (s.pc - 2) := rfl

@[simp] theorem setFlag_eq (b : Bool) : s.setFlag b = s.setReg VF (flagByte b) := rfl

theorem skipIf_eq (c : Bool) : s.skipIf c = s.setPc (if c then s.pc + 2 else s.pc) := by
  cases c <;> rfl

theorem raise_eq (k : FaultKind) (n : Nat) (i : Instr) :
    raise k n i s = .next (raiseAt (s.pc - 2) (some (encode i)) k n s) := rfl

theorem raiseFetch_eq : raiseFetch s = raiseAt s.pc none .fetchBounds s.pc.toNat s := rfl

/-! ## The state after reset -/

@[simp] theorem reset_reg (r : Reg) : State.reset.reg r = 0 := by
  simp [State.reset, State.reg]

@[simp] theorem reset_cell (px py : Nat) : State.reset.cell px py = false := by
  simp [State.reset, State.cell]

@[simp] theorem reset_pressed (k : Fin 16) : State.reset.pressed k = false := by
  simp [State.reset, State.pressed]

/-- Two states with the same fields are the same. -/
theorem state_eq {s t : State} (hV : s.V = t.V) (hI : s.I = t.I) (hpc : s.pc = t.pc) (hsp : s.sp = t.sp)
    (hst : s.stack = t.stack) (hdt : s.DT = t.DT) (hs : s.ST = t.ST) (hm : s.mem = t.mem) (hd : s.disp = t.disp)
    (hk : s.key = t.key) (hw : s.wait = t.wait) (hf : s.fault = t.fault) (hr : s.draws = t.draws) : s = t := by
  cases s; cases t; simp_all

end Sys2Proof.Machine
end

