-- ==== Sys2Proof/Laws/Ops.lean ====
section
/-! SUPPORT. What each shared operation can do, said once: fetch, the call stack, the address check, the loop, the key
lookups, the loops of Fx55 and Fx65, and the step. -/

namespace Sys2Proof.Machine

/-! ## Fetch -/

theorem fetch_eq_none {s : State} : fetch s = none ↔ 4095 ≤ s.pc.toNat := by
  unfold fetch
  split <;> simp <;> omega

theorem fetch_eq_some {s : State} (h : s.pc.toNat ≤ 4094) :
    fetch s = some (wordOfBytes (s.mem.read s.pc.toNat) (s.mem.read (s.pc.toNat + 1))) :=
  if_neg (by omega)

/-- Fetch depends on pc and memory alone. -/
theorem fetch_congr {s t : State} (hp : t.pc = s.pc) (hm : t.mem = s.mem) : fetch t = fetch s := by
  simp only [fetch, hp, hm]

/-! ## The call stack -/

theorem pushReturn_of_lt {s : State} (h : s.sp.val < 16) (a : Word) :
    pushReturn a s = some { s with stack := s.stack.set s.sp.val a, sp := ⟨s.sp.val + 1, by omega⟩ } := dif_pos h

theorem pushReturn_of_full {s : State} (h : s.sp.val = 16) (a : Word) : pushReturn a s = none := dif_neg (by omega)

theorem popReturn_of_pos {s : State} (h : 0 < s.sp.val) :
    popReturn s = some { s with sp := ⟨s.sp.val - 1, by omega⟩, pc := s.stack[s.sp.val - 1] } := dif_pos h

theorem popReturn_of_empty {s : State} (h : s.sp.val = 0) : popReturn s = none := dif_neg (by omega)

/-! ## The address check -/

theorem firstOutside_eq_none {base len : Nat} : firstOutside base len = none ↔ len = 0 ∨ base + len ≤ 4096 := by
  unfold firstOutside
  split <;> simp <;> omega

/-- The check answers the lowest address above 4095 (R58). -/
theorem firstOutside_eq_some {base len info : Nat} : firstOutside base len = some info ↔ LowestOutside base len info := by
  unfold firstOutside LowestOutside
  split
  · rename_i h
    simp only [Option.some.injEq]
    constructor
    · rintro rfl
      refine ⟨by omega, fun a _ _ _ => by omega⟩
    · rintro ⟨⟨h1, h2, h3⟩, h4⟩
      have := h4 (max base 4096) (by omega) (by omega) (by omega)
      omega
  · simp only [reduceCtorEq, false_iff, not_and]
    rintro ⟨h1, h2, h3⟩
    omega

/-! ## The loop -/

@[simp] theorem forUpTo_zero (body : Nat → State → State) (s : State) : forUpTo 0 body s = s := rfl

@[simp] theorem forUpTo_succ (n : Nat) (body : Nat → State → State) (s : State) :
    forUpTo (n + 1) body s = body n (forUpTo n body s) := rfl

/-- What every turn carries to the next, the loop carries to its end. -/
theorem forUpTo_induct {n : Nat} {body : Nat → State → State} {s : State} (P : Nat → State → Prop) (h0 : P 0 s)
    (hs : ∀ k t, k < n → P k t → P (k + 1) (body k t)) : P n (forUpTo n body s) := by
  induction n with
  | zero => exact h0
  | succ n ih => exact hs n _ (Nat.lt_succ_self n) (ih fun k t hk => hs k t (Nat.lt_succ_of_lt hk))

/-! ## Keys -/

theorem keyIndex_eq_some {b : Byte} {k : Fin 16} : keyIndex b = some k ↔ b.toNat = k.val := by
  unfold keyIndex
  split
  · simp [Fin.ext_iff]
  · simp only [reduceCtorEq, false_iff]; omega

theorem keyIndex_eq_none {b : Byte} : keyIndex b = none ↔ 15 < b.toNat := by
  unfold keyIndex
  split <;> simp <;> omega

theorem firstPressed_eq_none {s : State} : s.firstPressed = none ↔ ∀ k, s.pressed k = false := by
  simp [State.firstPressed, List.find?_eq_none]

/-- The lowest pressed key is found (R174). -/
theorem firstPressed_eq_some {s : State} {k : Fin 16} :
    s.firstPressed = some k ↔ s.pressed k = true ∧ ∀ j, j < k → s.pressed j = false := by
  constructor
  · intro h
    obtain ⟨hk, i, hi, e, hlt⟩ := List.find?_eq_some_iff_getElem.1 h
    refine ⟨by simpa using hk, fun j hj => ?_⟩
    simp only [List.getElem_finRange] at e
    have hji : j.val < i := by
      have := Fin.lt_def.1 hj
      have := congrArg Fin.val e
      simp at this
      omega
    simpa using hlt j.val hji
  · rintro ⟨hk, hlt⟩
    cases h : s.firstPressed with
    | none => simp [firstPressed_eq_none.1 h k] at hk
    | some j =>
      obtain ⟨hj, i, hi, e, hlt'⟩ := List.find?_eq_some_iff_getElem.1 h
      simp only [List.getElem_finRange] at e
      have hij : i = j.val := by simpa using congrArg Fin.val e
      have h1 : ¬ j < k := fun hc => by simp [hlt j hc] at hj
      have h2 : ¬ k < j := fun hc => by
        have := hlt' k.val (by rw [hij]; exact Fin.lt_def.1 hc)
        simp [hk] at this
      exact congrArg some (Fin.le_antisymm (Fin.not_lt.1 h2) (Fin.not_lt.1 h1))

/-! ## Storing and loading registers -/

/-- The loop of Fx55: memory alone changes, and the stored bytes are the registers (R156). -/
theorem forUpTo_storeReg {s : State} (h : MemoryCanonical s) {n : Nat} (hn : n ≤ 16) (hI : s.I.toNat + n ≤ 4096) :
    let t := forUpTo n storeReg s
    t = { s with mem := t.mem } ∧ MemoryCanonical t ∧
      ∀ a, t.mem.read a =
        if h : s.I.toNat ≤ a ∧ a < s.I.toNat + n then s.reg ⟨a - s.I.toNat, by omega⟩ else s.mem.read a := by
  refine forUpTo_induct (body := storeReg) (s := s) (n := n)
    (fun k t => t = { s with mem := t.mem } ∧ MemoryCanonical t ∧ ∀ a, t.mem.read a =
      if h : s.I.toNat ≤ a ∧ a < s.I.toNat + k then s.reg (Fin.ofNat 16 (a - s.I.toNat)) else s.mem.read a)
    ⟨rfl, h, fun a => by rw [dif_neg (by omega)]⟩ ?_ |> fun ⟨h1, h2, h3⟩ => ⟨h1, h2, fun a => ?_⟩
  · rintro k t hk ⟨he, hw, hr⟩
    have hI' : t.I = s.I := by rw [he]
    have hreg : ∀ q, t.reg q = s.reg q := fun q => by rw [he]; rfl
    refine ⟨by simp only [storeReg, State.setByte]; rw [he], ?_, fun a => ?_⟩
    · exact Memory.wf_write _ hw (by rw [hI']; omega)
    · simp only [storeReg, State.setByte, hI', hreg]
      rw [Memory.read_write hw, hr]
      by_cases e : a = s.I.toNat + k
      · subst e; simp
      · rw [if_neg e]
        by_cases h' : s.I.toNat ≤ a ∧ a < s.I.toNat + k
        · rw [dif_pos h', dif_pos (by omega)]
        · rw [dif_neg h', dif_neg (by omega)]
  · rw [h3]
    by_cases h' : s.I.toNat ≤ a ∧ a < s.I.toNat + n
    · rw [dif_pos h', dif_pos h']
      congr 1
      ext
      simp [Nat.mod_eq_of_lt (show a - s.I.toNat < 16 by omega)]
    · rw [dif_neg h', dif_neg h']

/-- The loop of Fx65: the registers alone change, and they are the bytes from I (R157). -/
theorem forUpTo_loadReg (s : State) {n : Nat} (hn : n ≤ 16) :
    let t := forUpTo n loadReg s
    t = { s with V := t.V } ∧
      ∀ r : Reg, t.reg r = if r.val < n then s.mem.read (s.I.toNat + r.val) else s.reg r := by
  refine forUpTo_induct (body := loadReg) (s := s) (n := n)
    (fun k t => t = { s with V := t.V } ∧ ∀ r : Reg, t.reg r =
      if r.val < k then s.mem.read (s.I.toNat + r.val) else s.reg r) ⟨rfl, fun r => by simp⟩ ?_
  rintro k t hk ⟨he, hr⟩
  have hI : t.I = s.I := by rw [he]
  have hm : t.mem = s.mem := by rw [he]
  refine ⟨by simp only [loadReg, State.setReg]; rw [he], fun r => ?_⟩
  simp only [loadReg, setReg_reg, hI, hm, hr]
  by_cases e : r = Fin.ofNat 16 k
  · subst e
    simp [Nat.mod_eq_of_lt (show k < 16 by omega)]
  · have : r.val ≠ k := fun hc => e (Fin.ext (by simp [hc.symm]))
    rw [if_neg e]
    by_cases h' : r.val < k
    · rw [if_pos h', if_pos (by omega)]
    · rw [if_neg h', if_neg (by omega)]

/-- Wherever it writes, the loop of Fx55 changes memory alone. -/
theorem storeReg_rest (n : Nat) (s : State) : ∃ m, forUpTo n storeReg s = { s with mem := m } :=
  forUpTo_induct (fun _ t => ∃ m, t = { s with mem := m }) ⟨_, rfl⟩
    fun k t _ ⟨_, ht⟩ => ⟨(storeReg k t).mem, by subst ht; rfl⟩

/-- Wherever it reads, the loop of Fx65 changes the registers alone. -/
theorem loadReg_rest (n : Nat) (s : State) : ∃ v, forUpTo n loadReg s = { s with V := v } :=
  forUpTo_induct (fun _ t => ∃ v, t = { s with V := v }) ⟨_, rfl⟩
    fun k t _ ⟨_, ht⟩ => ⟨(loadReg k t).V, by subst ht; rfl⟩

/-! ## The step -/

/-- Everything a STEP can do. -/
theorem step_cases {s t : State} (h : step s = .next t) :
    (s.fault ≠ none ∧ t = s) ∨
    (s.fault = none ∧ fetch s = none ∧ t = raiseFetch s) ∨
    (∃ op e, s.fault = none ∧ fetch s = some op ∧ decode op = .error e ∧ t = s.advance) ∨
    (∃ op i, s.fault = none ∧ fetch s = some op ∧ decode op = .ok i ∧ exec i s.advance = .next t) := by
  unfold step at h
  split at h
  · rename_i hf
    left
    cases h
    exact ⟨by intro e; simp [e] at hf, rfl⟩
  · rename_i hf
    have hf' : s.fault = none := by simpa using hf
    split at h
    · rename_i hfe
      cases h
      exact .inr (.inl ⟨hf', hfe, rfl⟩)
    · rename_i op hfe
      split at h
      · rename_i i hd
        exact .inr (.inr (.inr ⟨op, i, hf', hfe, hd, h⟩))
      · rename_i e hd
        cases h
        exact .inr (.inr (.inl ⟨op, e, hf', hfe, hd, rfl⟩))

theorem step_faulted {s : State} (h : s.fault ≠ none) : step s = .next s := by
  unfold step
  rw [if_pos (by simpa [Option.isSome_iff_ne_none] using h)]

theorem step_decoded {s : State} {op : Word} {i : Instr} (hf : s.fault = none) (hfe : fetch s = some op)
    (hd : decode op = .ok i) : step s = exec i s.advance := by
  simp [step, hf, hfe, hd]

theorem step_unknown {s : State} {op : Word} {e : Reject} (hf : s.fault = none) (hfe : fetch s = some op)
    (hd : decode op = .error e) : step s = .next s.advance := by
  simp [step, hf, hfe, hd]

theorem step_unfetched {s : State} (hf : s.fault = none) (hfe : fetch s = none) : step s = .next (raiseFetch s) := by
  simp [step, hf, hfe]

end Sys2Proof.Machine
end

