-- ==== Sys2Proof/Laws/Display.lean ====
section
/-! SUPPORT. What drawing does: a picture of on-screen cells is inverted, and VF tells of a collision. -/

namespace Sys2Proof.Machine

/-- `t` is `s` with the cells of the picture `p` inverted, VF set to 1 if one of them was lit, and nothing else changed. -/
structure Drawn (s : State) (p : Nat → Nat → Bool) (t : State) : Prop where
  rest : t = { s with V := t.V, disp := t.disp }
  regs : ∀ r, r ≠ VF → t.reg r = s.reg r
  cells : ∀ px py, t.cell px py = (s.cell px py ^^ p px py)
  hit : ∀ px py, s.cell px py = true → p px py = true → t.reg VF = 1
  miss : (∀ px py, s.cell px py = true → p px py = false) → t.reg VF = s.reg VF

theorem Drawn.mem_eq {s t : State} {p : Nat → Nat → Bool} (h : Drawn s p t) : t.mem = s.mem := by rw [h.rest]

theorem Drawn.I_eq {s t : State} {p : Nat → Nat → Bool} (h : Drawn s p t) : t.I = s.I := by rw [h.rest]

theorem Drawn.refl (s : State) : Drawn s (fun _ _ => false) s :=
  ⟨rfl, fun _ _ => rfl, fun _ _ => by simp, fun _ _ _ h => by simp at h, fun _ => rfl⟩

theorem Drawn.congr {s t : State} {p q : Nat → Nat → Bool} (h : Drawn s p t) (e : ∀ px py, p px py = q px py) :
    Drawn s q t := by
  have : p = q := funext fun x => funext fun y => e x y
  exact this ▸ h

/-- Two pictures drawn one after the other, with no cell in common. -/
theorem Drawn.trans {s t u : State} {p q : Nat → Nat → Bool} (h : Drawn s p t) (h' : Drawn t q u)
    (hd : ∀ px py, p px py = true → q px py = false) : Drawn s (fun px py => p px py || q px py) u where
  rest := by rw [h'.rest, h.rest]
  regs r hr := (h'.regs r hr).trans (h.regs r hr)
  cells px py := by
    rw [h'.cells, h.cells]
    have := hd px py
    cases s.cell px py <;> cases hp : p px py <;> cases hq : q px py <;> simp_all
  hit px py hc hpq := by
    by_cases hq : ∃ x y, t.cell x y = true ∧ q x y = true
    · obtain ⟨x, y, h1, h2⟩ := hq
      exact h'.hit x y h1 h2
    · have hu : u.reg VF = t.reg VF := h'.miss fun x y hxy => by
        cases hqq : q x y with
        | false => rfl
        | true => exact absurd ⟨x, y, hxy, hqq⟩ hq
      rw [hu]
      cases hp : p px py with
      | true => exact h.hit px py hc hp
      | false =>
        refine absurd ⟨px, py, ?_, by simpa [hp] using hpq⟩ hq
        rw [h.cells, hp, hc]; rfl
  miss hm := by
    have h1 : t.reg VF = s.reg VF := h.miss fun x y hxy => by
      have := hm x y hxy
      simp at this
      exact this.1
    rw [← h1]
    refine h'.miss fun x y hxy => ?_
    cases hq : q x y with
    | false => rfl
    | true =>
      have hp : p x y = false := by
        cases hp : p x y with
        | false => rfl
        | true => simp [hd x y hp] at hq
      rw [h.cells, hp, Bool.xor_false] at hxy
      have := hm x y hxy
      simp [hq] at this

/-- One drawn 1-bit inverts one cell (R101). -/
theorem toggleCell_drawn (s : State) {px py : Nat} (hx : px < 64) (hy : py < 32) :
    Drawn s (fun qx qy => decide (qx = px ∧ qy = py)) (toggleCell px py s) := by
  have hc : ∀ (t : State) b qx qy, (t.setCell px py b).cell qx qy = if qx = px ∧ qy = py then b else t.cell qx qy :=
    fun t b => setCell_cell t hx hy b
  constructor
  · unfold toggleCell State.setCell
    rw [dif_pos ⟨hy, hx⟩]
    by_cases h : s.cell px py = true <;> simp [h, State.setReg]
  · intro r hr
    unfold toggleCell
    by_cases h : s.cell px py = true <;> simp [h, hr]
  · intro qx qy
    unfold toggleCell
    have e : (if s.cell px py = true then s.setReg VF 1 else s).cell qx qy = s.cell qx qy := by split <;> rfl
    simp only [hc, e]
    by_cases h : qx = px ∧ qy = py
    · obtain ⟨rfl, rfl⟩ := h; simp
    · simp [h]
  · intro qx qy h1 h2
    obtain ⟨rfl, rfl⟩ := of_decide_eq_true h2
    simp [toggleCell, h1]
  · intro hm
    have : s.cell px py = false := by
      cases h : s.cell px py with
      | false => rfl
      | true => simpa using hm px py h
    simp [toggleCell, this]

/-- Whatever the place, drawing a bit changes registers and display alone. -/
theorem toggleCell_rest (px py : Nat) (s : State) : ∃ v d, toggleCell px py s = { s with V := v, disp := d } := by
  unfold toggleCell State.setCell
  by_cases h : s.cell px py = true <;> simp only [h, if_true] <;> split <;> exact ⟨_, _, rfl⟩

/-- Whatever the place and size, drawing a sprite changes registers and display alone. -/
theorem drawSprite_rest (x0 y0 rows : Nat) (s : State) :
    ∃ v d, drawSprite x0 y0 rows s = { s with V := v, disp := d } := by
  refine forUpTo_induct (fun _ t => ∃ v d, t = { s with V := v, disp := d }) ⟨_, _, rfl⟩ fun _ _ _ ht => ?_
  refine forUpTo_induct (fun _ t => ∃ v d, t = { s with V := v, disp := d }) ht fun c t _ ⟨v, d, ht⟩ => ?_
  subst ht
  split
  · obtain ⟨v', d', h⟩ := toggleCell_rest (x0 + c) _ { s with V := v, disp := d }
    exact ⟨v', d', by rw [h]⟩
  · exact ⟨_, _, rfl⟩

/-- One row of a sprite, clipped at column 63 (R101, R103). -/
theorem drawRow_drawn (b : Byte) (x0 : Nat) {py : Nat} (hy : py < 32) (s : State) :
    Drawn s (fun qx qy => decide (qy = py ∧ x0 ≤ qx ∧ qx < x0 + min 8 (64 - x0)) && spriteBit b (qx - x0))
      (drawRow b x0 py s) := by
  refine forUpTo_induct (s := s) (fun k t =>
    Drawn s (fun qx qy => decide (qy = py ∧ x0 ≤ qx ∧ qx < x0 + k) && spriteBit b (qx - x0)) t)
    ((Drawn.refl s).congr fun qx qy => ?_) fun k t hk ih => ?_
  · simp
  · have key : Drawn t (fun qx qy => decide (qx = x0 + k ∧ qy = py) && spriteBit b k)
        (if spriteBit b k then toggleCell (x0 + k) py t else t) := by
      by_cases hb : spriteBit b k = true
      · simp only [hb, if_true, Bool.and_true]
        exact toggleCell_drawn t (by omega) hy
      · simp only [Bool.eq_false_iff.2 hb, Bool.and_false]
        exact Drawn.refl t
    refine (ih.trans key fun qx qy h => ?_).congr fun qx qy => ?_
    · simp at h ⊢
      omega
    · by_cases e : qx = x0 + k
      · subst e
        simp
      · have : (x0 ≤ qx ∧ qx < x0 + (k + 1)) ↔ (x0 ≤ qx ∧ qx < x0 + k) := by omega
        simp [e, this]

/-- The picture a sprite draws: its 1-bits, clipped at the right and the bottom (R101). -/
theorem drawSprite_drawn (s : State) {x0 y0 rows : Nat} (hy : y0 + rows ≤ 32) :
    Drawn s (fun px py => decide (px < 64) && SpriteAt s x0 y0 rows px py) (drawSprite x0 y0 rows s) := by
  refine forUpTo_induct (s := s) (fun k t =>
    Drawn s (fun px py => decide (px < 64) && SpriteAt s x0 y0 k px py) t)
    ((Drawn.refl s).congr fun qx qy => ?_) fun k t hk ih => ?_
  · simp [SpriteAt]
  · have key := drawRow_drawn (t.mem.read (t.I.toNat + k)) x0 (show y0 + k < 32 by omega) t
    rw [ih.mem_eq, ih.I_eq] at key ⊢
    refine (ih.trans key fun qx qy h => ?_).congr fun qx qy => ?_
    · simp [SpriteAt] at h ⊢
      omega
    · simp only [SpriteAt, spriteBit]
      by_cases e : qy = y0 + k
      · subst e
        simp only [Nat.add_sub_cancel_left]
        rw [Bool.eq_iff_iff]
        simp only [Bool.or_eq_true, Bool.and_eq_true, decide_eq_true_eq]
        constructor
        · rintro (h | h)
          · omega
          · exact ⟨by omega, by omega, h.2⟩
        · rintro ⟨h, h', h''⟩
          exact .inr ⟨⟨trivial, by omega, by omega⟩, h''⟩
      · rw [Bool.eq_iff_iff]
        simp only [Bool.or_eq_true, Bool.and_eq_true, decide_eq_true_eq]
        constructor
        · rintro (h | h)
          · exact ⟨h.1, ⟨by omega, h.2.2⟩⟩
          · exact absurd h.1.1 e
        · rintro ⟨h, h', h''⟩
          exact .inl ⟨h, ⟨by omega, h''⟩⟩

end Sys2Proof.Machine
end

