-- ==== Sys2Proof/Laws/Meanings.lean ====
section
/-! SUPPORT. The instructions with more than one outcome, one equation per outcome: where each completes and with which
state, and where it raises. The other instructions answer their one state by rfl. -/

namespace Sys2Proof.Machine

variable {s : State}

theorem exec_ret_of_pos (h : 0 < s.sp.val) :
    exec .ret s = .next { s with sp := ⟨s.sp.val - 1, by omega⟩, pc := s.stack[s.sp.val - 1] } := by
  simp only [exec, execRet, popReturn_of_pos h]

theorem exec_ret_of_empty (h : s.sp.val = 0) : exec .ret s = raise .stackUnderflow 0 .ret s := by
  simp only [exec, execRet, popReturn_of_empty h]

theorem exec_call_of_lt (nnn : Nat) (h : s.sp.val < 16) :
    exec (.call nnn) s = .next
      { s with stack := s.stack.set s.sp.val s.pc, sp := ⟨s.sp.val + 1, by omega⟩, pc := zextAddr nnn } := by
  simp only [exec, execCall, pushReturn_of_lt h, State.setPc]

theorem exec_call_of_full (nnn : Nat) (h : s.sp.val = 16) :
    exec (.call nnn) s = raise .stackOverflow nnn (.call nnn) s := by
  simp only [exec, execCall, pushReturn_of_full h]

theorem exec_drw_of_inside {x y : Reg} {n : Nat} (h : rowsDrawn s y n = 0 ∨ s.I.toNat + rowsDrawn s y n ≤ 4096) :
    exec (.drw x y n) s = .next (drawSprite ((s.reg x).toNat % 64) ((s.reg y).toNat % 32) (rowsDrawn s y n)
      (s.setReg VF 0)) := by
  have h' := firstOutside_eq_none.2 h
  unfold rowsDrawn at h' ⊢
  simp only [exec, execDrw, h']

theorem exec_drw_of_outside {x y : Reg} {n info : Nat} (h : LowestOutside s.I.toNat (rowsDrawn s y n) info) :
    exec (.drw x y n) s = raise .memBounds info (.drw x y n) s := by
  have h' := firstOutside_eq_some.2 h
  unfold rowsDrawn at h'
  simp only [exec, execDrw, h']

theorem exec_addI_of_fits {x : Reg} (h : s.I.toNat + (s.reg x).toNat ≤ 65535) :
    exec (.addI x) s = .next (s.setI (BitVec.ofNat 16 (s.I.toNat + (s.reg x).toNat))) := by
  simp only [exec, execAddI]
  exact if_neg (by omega)

theorem exec_addI_of_wraps {x : Reg} (h : s.I.toNat + (s.reg x).toNat > 65535) :
    exec (.addI x) s = raise .indexWrap (s.I.toNat + (s.reg x).toNat) (.addI x) s := by
  simp only [exec, execAddI]
  exact if_pos h

theorem exec_ldB_of_inside (x : Reg) (h : s.I.toNat + 3 ≤ 4096) :
    exec (.ldB x) s = .next { s with mem := s.mem.writeMany s.I.toNat (bcdDigits (s.reg x)) } := by
  simp only [exec, execLdB, firstOutside_eq_none.2 (.inr h)]

theorem exec_ldB_of_outside {info : Nat} (x : Reg) (h : LowestOutside s.I.toNat 3 info) :
    exec (.ldB x) s = raise .memBounds info (.ldB x) s := by
  simp only [exec, execLdB, firstOutside_eq_some.2 h]

theorem exec_ldStore_of_inside {x : Reg} (h : s.I.toNat + (x.val + 1) ≤ 4096) :
    exec (.ldStore x) s = .next (forUpTo (x.val + 1) storeReg s) := by
  simp only [exec, execLdStore, firstOutside_eq_none.2 (.inr h)]

theorem exec_ldStore_of_outside {x : Reg} {info : Nat} (h : LowestOutside s.I.toNat (x.val + 1) info) :
    exec (.ldStore x) s = raise .memBounds info (.ldStore x) s := by
  simp only [exec, execLdStore, firstOutside_eq_some.2 h]

theorem exec_ldLoad_of_inside {x : Reg} (h : s.I.toNat + (x.val + 1) ≤ 4096) :
    exec (.ldLoad x) s = .next (forUpTo (x.val + 1) loadReg s) := by
  simp only [exec, execLdLoad, firstOutside_eq_none.2 (.inr h)]

theorem exec_ldLoad_of_outside {x : Reg} {info : Nat} (h : LowestOutside s.I.toNat (x.val + 1) info) :
    exec (.ldLoad x) s = raise .memBounds info (.ldLoad x) s := by
  simp only [exec, execLdLoad, firstOutside_eq_some.2 h]

theorem exec_skp_of_key {x : Reg} {k : Fin 16} (h : (s.reg x).toNat = k.val) :
    exec (.skp x) s = .next (s.skipIf (s.pressed k)) := by
  simp only [exec, execSkp, keyIndex_eq_some.2 h]

theorem exec_skp_of_range {x : Reg} (h : 15 < (s.reg x).toNat) :
    exec (.skp x) s = raise .keyRange (s.reg x).toNat (.skp x) s := by
  simp only [exec, execSkp, keyIndex_eq_none.2 h]

theorem exec_sknp_of_key {x : Reg} {k : Fin 16} (h : (s.reg x).toNat = k.val) :
    exec (.sknp x) s = .next (s.skipIf (!s.pressed k)) := by
  simp only [exec, execSknp, keyIndex_eq_some.2 h]

theorem exec_sknp_of_range {x : Reg} (h : 15 < (s.reg x).toNat) :
    exec (.sknp x) s = raise .keyRange (s.reg x).toNat (.sknp x) s := by
  simp only [exec, execSknp, keyIndex_eq_none.2 h]

theorem exec_ldVxK_of_latched {x : Reg} {k : Fin 16} (h : s.wait = some k) :
    exec (.ldVxK x) s = .next (awaitRelease x k s) := by
  simp only [exec, execLdVxK, h]

theorem exec_ldVxK_of_idle {x : Reg} (h : s.wait = none) (hp : ∀ k, s.pressed k = false) :
    exec (.ldVxK x) s = .next s.regress := by
  simp only [exec, execLdVxK, h, firstPressed_eq_none.2 hp]

/-- The STEP that latches sees its key pressed, so it executes again (R174). -/
theorem exec_ldVxK_of_press {x : Reg} {k : Fin 16} (h : s.wait = none) (hk : s.pressed k = true)
    (hl : ∀ j, j < k → s.pressed j = false) :
    exec (.ldVxK x) s = .next (s.setWait (some k)).regress := by
  simp only [exec, execLdVxK, h, firstPressed_eq_some.2 ⟨hk, hl⟩, awaitRelease, setWait_pressed, hk, if_true]

theorem awaitRelease_held {x : Reg} {k : Fin 16} (h : s.pressed k = true) : awaitRelease x k s = s.regress :=
  if_pos h

theorem awaitRelease_released {x : Reg} {k : Fin 16} (h : s.pressed k = false) :
    awaitRelease x k s = (s.setReg x (BitVec.ofNat 8 k.val)).setWait none := by
  simp [awaitRelease, h]

end Sys2Proof.Machine
end

