-- ==== Sys2Proof/Laws/Exec.lean ====
section
/-! SUPPORT. Everything an executing instruction can do: raise for its cause, or have its own effect. Frames and
invariants split on this instead of unfolding the meanings. -/

namespace Sys2Proof.Machine

/-- The state an instruction leaves where it does not raise. -/
def effect (i : Instr) (s : State) : State :=
  match i with
  | .cls => s.clearDisplay
  | .ret => if h : 0 < s.sp.val then { s with sp := ⟨s.sp.val - 1, by omega⟩, pc := s.stack[s.sp.val - 1] } else s
  | .jp nnn => s.setPc (zextAddr nnn)
  | .call nnn =>
    if h : s.sp.val < 16 then
      { s with stack := s.stack.set s.sp.val s.pc, sp := ⟨s.sp.val + 1, by omega⟩, pc := zextAddr nnn }
    else s
  | .seImm x kk => s.skipIf (s.reg x == kk)
  | .sneImm x kk => s.skipIf (s.reg x != kk)
  | .seReg x y => s.skipIf (s.reg x == s.reg y)
  | .sneReg x y => s.skipIf (s.reg x != s.reg y)
  | .ldImm x kk => s.setReg x kk
  | .addImm x kk => s.setReg x (s.reg x + kk)
  | .ldReg x y => s.setReg x (s.reg y)
  | .orReg x y => s.setReg x (s.reg x ||| s.reg y)
  | .andReg x y => s.setReg x (s.reg x &&& s.reg y)
  | .xorReg x y => s.setReg x (s.reg x ^^^ s.reg y)
  | .addReg x y => (s.setReg x (s.reg x + s.reg y)).setFlag (carryOut (s.reg x) (s.reg y))
  | .sub x y =>
    let t := s.setFlag (notBorrow (s.reg x) (s.reg y))
    t.setReg x (t.reg x - t.reg y)
  | .shr x _ =>
    let t := s.setFlag (shiftedOutRight (s.reg x))
    t.setReg x (t.reg x >>> 1)
  | .subn x y =>
    let t := s.setFlag (notBorrow (s.reg y) (s.reg x))
    t.setReg x (t.reg y - t.reg x)
  | .shl x _ =>
    let t := s.setFlag (shiftedOutLeft (s.reg x))
    t.setReg x (t.reg x <<< 1)
  | .ldI nnn => s.setI (zextAddr nnn)
  | .jpV0 nnn => s.setPc (zextAddr nnn + zextByte (s.reg V0))
  | .rnd x kk => s.countDraw.setReg x (s.nextDraw &&& kk)
  | .drw x y n => drawSprite ((s.reg x).toNat % 64) ((s.reg y).toNat % 32) (rowsDrawn s y n) (s.setReg VF 0)
  | .skp x => s.skipIf ((keyIndex (s.reg x)).any s.pressed)
  | .sknp x => s.skipIf (!(keyIndex (s.reg x)).any s.pressed)
  | .ldVxDt x => s.setReg x s.DT
  | .ldVxK x =>
    match s.wait, s.firstPressed with
    | some k, _ => awaitRelease x k s
    | none, some k => (s.setWait (some k)).regress
    | none, none => s.regress
  | .ldDtVx x => s.setDT (s.reg x)
  | .ldStVx x => s.setST (s.reg x)
  | .addI x => s.setI (BitVec.ofNat 16 (s.I.toNat + (s.reg x).toNat))
  | .ldF x => s.setI (zextByte (s.reg x) * 5)
  | .ldB x => { s with mem := s.mem.writeMany s.I.toNat (bcdDigits (s.reg x)) }
  | .ldStore x => forUpTo (x.val + 1) storeReg s
  | .ldLoad x => forUpTo (x.val + 1) loadReg s

/-- An instruction raises for its cause, with what R201 names, or has its effect. -/
theorem exec_total (i : Instr) (s : State) :
    (∃ k n, Cause s k n i ∧ exec i s = .next (raiseAt (s.pc - 2) (some (encode i)) k n s)) ∨
    ((∀ k n, ¬ Cause s k n i) ∧ exec i s = .next (effect i s)) := by
  have noCause : ∀ {base len : Nat}, firstOutside base len = none → ∀ n, ¬ LowestOutside base len n := fun h n hc => by
    rw [firstOutside_eq_some.2 hc] at h; cases h
  cases i with
  | ret =>
    rcases Nat.eq_zero_or_pos s.sp.val with h | h
    · exact .inl ⟨_, _, ⟨rfl, h, rfl⟩, exec_ret_of_empty h⟩
    · exact .inr ⟨fun k n hc => by have := hc.2.1; omega, by rw [exec_ret_of_pos h]; simp [effect, h]⟩
  | call nnn =>
    by_cases h : s.sp.val < 16
    · exact .inr ⟨fun k n hc => by have := hc.2.1; omega, by rw [exec_call_of_lt nnn h]; simp [effect, h]⟩
    · exact .inl ⟨_, _, ⟨rfl, by omega, rfl⟩, exec_call_of_full nnn (by omega)⟩
  | drw x y n =>
    cases h : firstOutside s.I.toNat (rowsDrawn s y n) with
    | some a => exact .inl ⟨_, _, ⟨rfl, firstOutside_eq_some.1 h⟩, exec_drw_of_outside (firstOutside_eq_some.1 h)⟩
    | none => exact .inr ⟨fun k m hc => noCause h m hc.2, exec_drw_of_inside (firstOutside_eq_none.1 h)⟩
  | ldB x =>
    cases h : firstOutside s.I.toNat 3 with
    | some a => exact .inl ⟨_, _, ⟨rfl, firstOutside_eq_some.1 h⟩, exec_ldB_of_outside x (firstOutside_eq_some.1 h)⟩
    | none => exact .inr ⟨fun k m hc => noCause h m hc.2, exec_ldB_of_inside x (by have := firstOutside_eq_none.1 h; omega)⟩
  | ldStore x =>
    cases h : firstOutside s.I.toNat (x.val + 1) with
    | some a => exact .inl ⟨_, _, ⟨rfl, firstOutside_eq_some.1 h⟩, exec_ldStore_of_outside (firstOutside_eq_some.1 h)⟩
    | none => exact .inr ⟨fun k m hc => noCause h m hc.2, exec_ldStore_of_inside (by have := firstOutside_eq_none.1 h; omega)⟩
  | ldLoad x =>
    cases h : firstOutside s.I.toNat (x.val + 1) with
    | some a => exact .inl ⟨_, _, ⟨rfl, firstOutside_eq_some.1 h⟩, exec_ldLoad_of_outside (firstOutside_eq_some.1 h)⟩
    | none => exact .inr ⟨fun k m hc => noCause h m hc.2, exec_ldLoad_of_inside (by have := firstOutside_eq_none.1 h; omega)⟩
  | addI x =>
    by_cases h : s.I.toNat + (s.reg x).toNat > 65535
    · exact .inl ⟨_, _, ⟨rfl, h, rfl⟩, exec_addI_of_wraps h⟩
    · exact .inr ⟨fun k n hc => by have := hc.2; omega, exec_addI_of_fits (by omega)⟩
  | skp x =>
    cases h : keyIndex (s.reg x) with
    | none => exact .inl ⟨_, _, ⟨rfl, keyIndex_eq_none.1 h, rfl⟩, exec_skp_of_range (keyIndex_eq_none.1 h)⟩
    | some k =>
      have hk := keyIndex_eq_some.1 h
      exact .inr ⟨fun k n hc => by have := hc.2; omega, by rw [exec_skp_of_key hk]; simp [effect, h]⟩
  | sknp x =>
    cases h : keyIndex (s.reg x) with
    | none => exact .inl ⟨_, _, ⟨rfl, keyIndex_eq_none.1 h, rfl⟩, exec_sknp_of_range (keyIndex_eq_none.1 h)⟩
    | some k =>
      have hk := keyIndex_eq_some.1 h
      exact .inr ⟨fun k n hc => by have := hc.2; omega, by rw [exec_sknp_of_key hk]; simp [effect, h]⟩
  | ldVxK x =>
    refine .inr ⟨fun _ _ h => h, ?_⟩
    cases hw : s.wait with
    | some k => rw [exec_ldVxK_of_latched hw]; simp only [effect, hw]
    | none =>
      cases hp : s.firstPressed with
      | none => rw [exec_ldVxK_of_idle hw (firstPressed_eq_none.1 hp)]; simp only [effect, hw, hp]
      | some k =>
        obtain ⟨h1, h2⟩ := firstPressed_eq_some.1 hp
        rw [exec_ldVxK_of_press hw h1 h2]; simp only [effect, hw, hp]
  | _ => exact .inr ⟨fun _ _ h => h, rfl⟩

/-- The same, for a given next state. -/
theorem exec_cases {i : Instr} {s t : State} (h : exec i s = .next t) :
    (∃ k n, Cause s k n i ∧ t = raiseAt (s.pc - 2) (some (encode i)) k n s) ∨
    ((∀ k n, ¬ Cause s k n i) ∧ t = effect i s) := by
  rcases exec_total i s with ⟨k, n, hc, he⟩ | ⟨hc, he⟩
  · rw [he] at h; cases h; exact .inl ⟨k, n, hc, rfl⟩
  · rw [he] at h; cases h; exact .inr ⟨hc, rfl⟩

/-- No instruction's own effect touches the fault record. -/
theorem effect_fault (i : Instr) (s : State) : (effect i s).fault = s.fault := by
  cases i <;> simp only [effect] <;> try (simp [skipIf_eq]; done)
  · split <;> rfl
  · split <;> rfl
  · obtain ⟨v, d, h⟩ := drawSprite_rest _ _ _ (s.setReg VF 0)
    rw [h]; rfl
  · split <;> (try unfold awaitRelease) <;> (try split) <;> rfl
  · obtain ⟨v, h⟩ := storeReg_rest _ s
    rw [h]
  · obtain ⟨v, h⟩ := loadReg_rest _ s
    rw [h]

end Sys2Proof.Machine
end

