-- ==== Sys2Proof/Laws/PerInstr.lean ====
section
/-! SUPPORT. One lemma per instruction: its word is selected by its own row of R74's map. -/

namespace Sys2Proof

/-! ## The bits under each mask -/

theorem fieldT_lt (w : Word) : fieldT w < 16 := by
  unfold fieldT
  omega

/-- Under the mask F000 only the group is left. -/
theorem and_F000 (w : Word) : w &&& 0xF000 = BitVec.ofNat 16 (fieldT w * 4096) := by
  have h : w &&& 0xF000#16 = (w >>> 12) <<< 12 := by
    apply BitVec.eq_of_getLsbD_eq
    intro i hi
    interval_cases i <;> simp
  rw [show w &&& 0xF000 = _ from h]
  apply BitVec.eq_of_toNat_eq
  simp [fieldT, Nat.shiftRight_eq_div_pow, Nat.shiftLeft_eq]

/-- Under the mask F00F the group and the low nibble are left. -/
theorem and_F00F (w : Word) : w &&& 0xF00F = BitVec.ofNat 16 (fieldT w * 4096 + fieldN w) := by
  have h1 : w &&& 0xF00F = (w &&& 0xF000) + (w &&& 0xF) := by
    rw [BitVec.add_eq_or_of_and_eq_zero]
    · apply BitVec.eq_of_getLsbD_eq; intro i hi; interval_cases i <;> simp
    · apply BitVec.eq_of_getLsbD_eq; intro i hi; interval_cases i <;> simp
  have h2 : w &&& 0xF = BitVec.ofNat 16 (fieldN w) := by
    apply BitVec.eq_of_toNat_eq
    rw [show (w &&& 0xF).toNat = w.toNat % 16 from by rw [BitVec.toNat_and]; exact (Nat.and_two_pow_sub_one_eq_mod _ 4)]
    simp [fieldN]
    omega
  rw [h1, and_F000, h2, BitVec.ofNat_add]

/-- Under the mask F0FF the group and the low byte are left. -/
theorem and_F0FF (w : Word) : w &&& 0xF0FF = BitVec.ofNat 16 (fieldT w * 4096 + (fieldKK w).toNat) := by
  have h1 : w &&& 0xF0FF = (w &&& 0xF000) + (w &&& 0xFF) := by
    rw [BitVec.add_eq_or_of_and_eq_zero]
    · apply BitVec.eq_of_getLsbD_eq; intro i hi; interval_cases i <;> simp
    · apply BitVec.eq_of_getLsbD_eq; intro i hi; interval_cases i <;> simp
  have h2 : w &&& 0xFF = BitVec.ofNat 16 (fieldKK w).toNat := by
    apply BitVec.eq_of_toNat_eq
    rw [show (w &&& 0xFF).toNat = w.toNat % 256 from by
      rw [BitVec.toNat_and]
      exact (Nat.and_two_pow_sub_one_eq_mod _ 8)]
    simp [fieldKK]
    omega
  rw [h1, and_F000, h2, BitVec.ofNat_add]

/-! ## The fields of an encoded word -/

theorem wordNNN_fields {t nnn : Nat} (ht : t < 16) (h : nnn < 4096) :
    fieldT (wordNNN t nnn) = t ∧ fieldNNN (wordNNN t nnn) = nnn := by
  have e : (wordNNN t nnn).toNat = t * 4096 + nnn := by
    simp [wordNNN]
    omega
  unfold fieldT fieldNNN
  rw [e]
  omega

theorem wordXKK_fields {t : Nat} (x : Reg) (kk : Byte) (ht : t < 16) :
    fieldT (wordXKK t x kk) = t ∧ fieldX (wordXKK t x kk) = x ∧ fieldKK (wordXKK t x kk) = kk := by
  have e : (wordXKK t x kk).toNat = t * 4096 + x.val * 256 + kk.toNat := by
    simp [wordXKK]
    omega
  unfold fieldT fieldX fieldKK
  rw [e]
  refine ⟨by omega, Fin.ext ?_, BitVec.eq_of_toNat_eq ?_⟩
  · simp; omega
  · simp; omega

theorem wordXYN_fields {t : Nat} (x y : Reg) (n : Nat) (ht : t < 16) (hn : n < 16) :
    fieldT (wordXYN t x y n) = t ∧ fieldX (wordXYN t x y n) = x ∧ fieldY (wordXYN t x y n) = y ∧
      fieldN (wordXYN t x y n) = n := by
  have e : (wordXYN t x y n).toNat = t * 4096 + x.val * 256 + y.val * 16 + n := by
    simp [wordXYN]
    omega
  unfold fieldT fieldX fieldY fieldN
  rw [e]
  refine ⟨by omega, Fin.ext ?_, Fin.ext ?_, by omega⟩
  · simp; omega
  · simp; omega

/-! ## Selection by each kind of mask -/

theorem selects_nnn {t nnn : Nat} (ht : t < 16) (h : nnn < 4096) :
    Row.selects ⟨0xF000, BitVec.ofNat 16 (t * 4096)⟩ (wordNNN t nnn) = true := by
  rw [Row.selects, beq_iff_eq, and_F000, (wordNNN_fields ht h).1]

theorem selects_xkk {t : Nat} (ht : t < 16) (x : Reg) (kk : Byte) :
    Row.selects ⟨0xF000, BitVec.ofNat 16 (t * 4096)⟩ (wordXKK t x kk) = true := by
  rw [Row.selects, beq_iff_eq, and_F000, (wordXKK_fields x kk ht).1]

theorem selects_group_xyn {t n : Nat} (ht : t < 16) (hn : n < 16) (x y : Reg) :
    Row.selects ⟨0xF000, BitVec.ofNat 16 (t * 4096)⟩ (wordXYN t x y n) = true := by
  rw [Row.selects, beq_iff_eq, and_F000, (wordXYN_fields x y n ht hn).1]

theorem selects_xyn {t n : Nat} (ht : t < 16) (hn : n < 16) (x y : Reg) :
    Row.selects ⟨0xF00F, BitVec.ofNat 16 (t * 4096 + n)⟩ (wordXYN t x y n) = true := by
  obtain ⟨h1, -, -, h2⟩ := wordXYN_fields x y n ht hn
  rw [Row.selects, beq_iff_eq, and_F00F, h1, h2]

theorem selects_x {t : Nat} {kk : Byte} (ht : t < 16) (x : Reg) :
    Row.selects ⟨0xF0FF, BitVec.ofNat 16 (t * 4096 + kk.toNat)⟩ (wordXKK t x kk) = true := by
  obtain ⟨h1, -, h2⟩ := wordXKK_fields x kk ht
  rw [Row.selects, beq_iff_eq, and_F0FF, h1, h2]

end Sys2Proof

namespace Sys2Proof.Laws.RowMatch

/-- The mask and match of the instruction's row select the word it is encoded as. -/
def Statement (i : Instr) : Prop := WellFormed i → i.row.selects (encode i) = true

theorem cls : Statement .cls := fun _ => rfl

theorem ret : Statement .ret := fun _ => rfl

theorem jp (nnn : Nat) : Statement (.jp nnn) := fun h => selects_nnn (t := 1) (by decide) (of_decide_eq_true h)

theorem call (nnn : Nat) : Statement (.call nnn) := fun h => selects_nnn (t := 2) (by decide) (of_decide_eq_true h)

theorem seImm (x : Reg) (kk : Byte) : Statement (.seImm x kk) := fun _ => selects_xkk (t := 3) (by decide) x kk

theorem sneImm (x : Reg) (kk : Byte) : Statement (.sneImm x kk) := fun _ => selects_xkk (t := 4) (by decide) x kk

theorem seReg (x y : Reg) : Statement (.seReg x y) := fun _ => selects_xyn (t := 5) (n := 0) (by decide) (by decide) x y

theorem ldImm (x : Reg) (kk : Byte) : Statement (.ldImm x kk) := fun _ => selects_xkk (t := 6) (by decide) x kk

theorem addImm (x : Reg) (kk : Byte) : Statement (.addImm x kk) := fun _ => selects_xkk (t := 7) (by decide) x kk

theorem ldReg (x y : Reg) : Statement (.ldReg x y) := fun _ => selects_xyn (t := 8) (n := 0) (by decide) (by decide) x y

theorem orReg (x y : Reg) : Statement (.orReg x y) := fun _ => selects_xyn (t := 8) (n := 1) (by decide) (by decide) x y

theorem andReg (x y : Reg) : Statement (.andReg x y) := fun _ => selects_xyn (t := 8) (n := 2) (by decide) (by decide) x y

theorem xorReg (x y : Reg) : Statement (.xorReg x y) := fun _ => selects_xyn (t := 8) (n := 3) (by decide) (by decide) x y

theorem addReg (x y : Reg) : Statement (.addReg x y) := fun _ => selects_xyn (t := 8) (n := 4) (by decide) (by decide) x y

theorem sub (x y : Reg) : Statement (.sub x y) := fun _ => selects_xyn (t := 8) (n := 5) (by decide) (by decide) x y

theorem shr (x y : Reg) : Statement (.shr x y) := fun _ => selects_xyn (t := 8) (n := 6) (by decide) (by decide) x y

theorem subn (x y : Reg) : Statement (.subn x y) := fun _ => selects_xyn (t := 8) (n := 7) (by decide) (by decide) x y

theorem shl (x y : Reg) : Statement (.shl x y) := fun _ => selects_xyn (t := 8) (n := 14) (by decide) (by decide) x y

theorem sneReg (x y : Reg) : Statement (.sneReg x y) := fun _ => selects_xyn (t := 9) (n := 0) (by decide) (by decide) x y

theorem ldI (nnn : Nat) : Statement (.ldI nnn) := fun h => selects_nnn (t := 10) (by decide) (of_decide_eq_true h)

theorem jpV0 (nnn : Nat) : Statement (.jpV0 nnn) := fun h => selects_nnn (t := 11) (by decide) (of_decide_eq_true h)

theorem rnd (x : Reg) (kk : Byte) : Statement (.rnd x kk) := fun _ => selects_xkk (t := 12) (by decide) x kk

theorem drw (x y : Reg) (n : Nat) : Statement (.drw x y n) := fun h => selects_group_xyn (t := 13) (by decide) (of_decide_eq_true h) x y

theorem skp (x : Reg) : Statement (.skp x) := fun _ => selects_x (t := 14) (kk := 0x9E) (by decide) x

theorem sknp (x : Reg) : Statement (.sknp x) := fun _ => selects_x (t := 14) (kk := 0xA1) (by decide) x

theorem ldVxDt (x : Reg) : Statement (.ldVxDt x) := fun _ => selects_x (t := 15) (kk := 0x07) (by decide) x

theorem ldVxK (x : Reg) : Statement (.ldVxK x) := fun _ => selects_x (t := 15) (kk := 0x0A) (by decide) x

theorem ldDtVx (x : Reg) : Statement (.ldDtVx x) := fun _ => selects_x (t := 15) (kk := 0x15) (by decide) x

theorem ldStVx (x : Reg) : Statement (.ldStVx x) := fun _ => selects_x (t := 15) (kk := 0x18) (by decide) x

theorem addI (x : Reg) : Statement (.addI x) := fun _ => selects_x (t := 15) (kk := 0x1E) (by decide) x

theorem ldF (x : Reg) : Statement (.ldF x) := fun _ => selects_x (t := 15) (kk := 0x29) (by decide) x

theorem ldB (x : Reg) : Statement (.ldB x) := fun _ => selects_x (t := 15) (kk := 0x33) (by decide) x

theorem ldStore (x : Reg) : Statement (.ldStore x) := fun _ => selects_x (t := 15) (kk := 0x55) (by decide) x

theorem ldLoad (x : Reg) : Statement (.ldLoad x) := fun _ => selects_x (t := 15) (kk := 0x65) (by decide) x

end Sys2Proof.Laws.RowMatch
end

