-- ==== Sys2Proof/Laws/Transactions.lean ====
section
/-! SUPPORT. What TICK, KEY and CONSTRUCT can do, each said once. -/

namespace Sys2Proof.Machine

theorem countDown_toNat (b : Byte) : (countDown b).toNat = b.toNat - 1 := by
  unfold countDown
  split
  · rename_i h
    rw [h]
    rfl
  · rename_i h
    have h0 : b.toNat ≠ 0 := fun h' => h (BitVec.eq_of_toNat_eq h')
    have := b.isLt
    rw [BitVec.toNat_sub]
    simp
    omega

theorem keyEvent_in {k : Nat} (hk : k < 16) (b : Bool) (s : State) :
    keyEvent k b s = .next { s with key := s.key.set k b } := dif_pos hk

theorem keyEvent_out {k : Nat} (hk : 15 < k) (b : Bool) (s : State) : keyEvent k b s = .refused .keyIndexOutOfRange :=
  dif_neg (by omega)

@[simp] theorem constructed_mem (font memInit : Nat → Byte) (image : List Byte) (s : State) :
    (constructed font memInit image s).mem = Memory.ofBytes (constructByte font memInit image) := by
  simp only [constructed]

@[simp] theorem constructed_pc (font memInit : Nat → Byte) (image : List Byte) (s : State) :
    (constructed font memInit image s).pc = 0x200 := rfl

@[simp] theorem constructed_stack (font memInit : Nat → Byte) (image : List Byte) (s : State) :
    (constructed font memInit image s).stack = Vector.replicate 16 0 := rfl

@[simp] theorem constructed_wait (font memInit : Nat → Byte) (image : List Byte) (s : State) :
    (constructed font memInit image s).wait = none := rfl

@[simp] theorem constructed_fault (font memInit : Nat → Byte) (image : List Byte) (s : State) :
    (constructed font memInit image s).fault = none := rfl

@[simp] theorem constructed_draws (font memInit : Nat → Byte) (image : List Byte) (s : State) :
    (constructed font memInit image s).draws = s.draws := rfl

/-- Every field but memory and the count of draws is the one reset gives. -/
theorem constructed_eq (font memInit : Nat → Byte) (image : List Byte) (s : State) :
    constructed font memInit image s =
      { State.reset with mem := (constructed font memInit image s).mem, draws := s.draws } := by
  rw [constructed_mem, constructed]

theorem construct_fits (font memInit : Nat → Byte) {image : List Byte} (h : image.length ≤ 3584) (s : State) :
    construct font memInit image s = .next (constructed font memInit image s) := if_neg (by omega)

theorem construct_too_large (font memInit : Nat → Byte) {image : List Byte} (h : 3584 < image.length) (s : State) :
    construct font memInit image s = .refused .loadTooLarge := if_pos h

/-- Everything a transaction that is no STEP can leave. -/
theorem transact_cases {tr : Transaction} {s t : State} (hne : tr ≠ .step) (h : transact tr s = .next t) :
    t = tick s ∨ (∃ k b, ∃ hk : k < 16, t = { s with key := s.key.set k b }) ∨
    (∃ font memInit image, t = constructed font memInit image s) := by
  cases tr with
  | step => exact absurd rfl hne
  | tick =>
    cases h
    exact .inl rfl
  | key k b =>
    by_cases hk : k < 16
    · rw [transact, keyEvent_in hk] at h
      cases h
      exact .inr (.inl ⟨k, b, hk, rfl⟩)
    · rw [transact, keyEvent_out (by omega)] at h
      cases h
  | construct font memInit image =>
    by_cases hl : image.length ≤ 3584
    · rw [transact, construct_fits _ _ hl] at h
      cases h
      exact .inr (.inr ⟨font, memInit, image, rfl⟩)
    · rw [transact, construct_too_large _ _ (by omega)] at h
      cases h

/-! ## Schedules -/

/-- A schedule that completes goes on with the one after it. -/
theorem transactAll_append {ts us : List Transaction} {s t : State} (h : transactAll ts s = .next t) :
    transactAll (ts ++ us) s = transactAll us t := by
  induction ts generalizing s with
  | nil =>
    cases h
    rfl
  | cons tr ts ih =>
    rw [transactAll] at h
    rw [List.cons_append, transactAll]
    split at h
    · exact ih h
    · cases h
    · cases h

/-- A run of TICKs completes and can change nothing but the timers. -/
theorem transactAll_ticks (n : Nat) (s : State) :
    ∃ dt st, transactAll (List.replicate n .tick) s = .next { s with DT := dt, ST := st } := by
  induction n generalizing s with
  | zero => exact ⟨s.DT, s.ST, rfl⟩
  | succ n ih =>
    obtain ⟨dt, st, h⟩ := ih (tick s)
    exact ⟨dt, st, h⟩

end Sys2Proof.Machine
end

