-- ==== Sys2Proof/Machine/Assembly.lean ====
section
/-! DEFINITION. The assembler syntax of R85 as text: what a word is written as. No meaning uses it; the mnemonics are the
spec's own choice (D23). Each form is one word (R86). -/

namespace Sys2Proof.Machine

/-- One hexadecimal digit. -/
def hexDigit (d : Nat) : String :=
  ["0", "1", "2", "3", "4", "5", "6", "7", "8", "9", "A", "B", "C", "D", "E", "F"].getD (d % 16) "0"

/-- A register, `V0` to `VF`. -/
def regText (r : Reg) : String := "V" ++ hexDigit r.val

/-- A byte `kk`, with its prefix. -/
def byteText (b : Byte) : String := "0x" ++ hexDigit (b.toNat / 16) ++ hexDigit b.toNat

/-- An address `nnn`, with its prefix. -/
def addrText (a : Nat) : String := "0x" ++ hexDigit (a / 256) ++ hexDigit (a / 16) ++ hexDigit a

/-- A row count `n`: decimal where it is one digit, else hexadecimal; R85 allows both. -/
def countText (n : Nat) : String := if n < 10 then hexDigit n else "0x" ++ hexDigit n

/-- A mnemonic with one operand. -/
def form1 (m a : String) : String := m ++ " " ++ a

/-- A mnemonic with two operands. -/
def form2 (m a b : String) : String := m ++ " " ++ a ++ ", " ++ b

/-- SHR and SHL: the optional Vy sets the ignored nibble, and is left out where that is 0 (R85). -/
def shiftForm (m : String) (x y : Reg) : String := if y = 0 then form1 m (regText x) else form2 m (regText x) (regText y)

/-- How an instruction is written (R85). -/
def asmText : Instr → String
  | .cls => "CLS"
  | .ret => "RET"
  | .jp nnn => form1 "JP" (addrText nnn)
  | .call nnn => form1 "CALL" (addrText nnn)
  | .seImm x kk => form2 "SE" (regText x) (byteText kk)
  | .sneImm x kk => form2 "SNE" (regText x) (byteText kk)
  | .seReg x y => form2 "SE" (regText x) (regText y)
  | .ldImm x kk => form2 "LD" (regText x) (byteText kk)
  | .addImm x kk => form2 "ADD" (regText x) (byteText kk)
  | .ldReg x y => form2 "LD" (regText x) (regText y)
  | .orReg x y => form2 "OR" (regText x) (regText y)
  | .andReg x y => form2 "AND" (regText x) (regText y)
  | .xorReg x y => form2 "XOR" (regText x) (regText y)
  | .addReg x y => form2 "ADD" (regText x) (regText y)
  | .sub x y => form2 "SUB" (regText x) (regText y)
  | .shr x y => shiftForm "SHR" x y
  | .subn x y => form2 "SUBN" (regText x) (regText y)
  | .shl x y => shiftForm "SHL" x y
  | .sneReg x y => form2 "SNE" (regText x) (regText y)
  | .ldI nnn => form2 "LD" "I" (addrText nnn)
  | .jpV0 nnn => form2 "JP" "V0" (addrText nnn)
  | .rnd x kk => form2 "RND" (regText x) (byteText kk)
  | .drw x y n => form2 "DRW" (regText x) (regText y) ++ ", " ++ countText n
  | .skp x => form1 "SKP" (regText x)
  | .sknp x => form1 "SKNP" (regText x)
  | .ldVxDt x => form2 "LD" (regText x) "DT"
  | .ldVxK x => form2 "LD" (regText x) "K"
  | .ldDtVx x => form2 "LD" "DT" (regText x)
  | .ldStVx x => form2 "LD" "ST" (regText x)
  | .addI x => form2 "ADD" "I" (regText x)
  | .ldF x => form2 "LD" "F" (regText x)
  | .ldB x => form2 "LD" "B" (regText x)
  | .ldStore x => form2 "LD" "[I]" (regText x)
  | .ldLoad x => form2 "LD" (regText x) "[I]"

/-- How a word is written: an unknown opcode as `.word 0xHHHH` (R85). -/
def wordText (op : Word) : String :=
  match decode op with
  | .ok i => asmText i
  | .error _ =>
    ".word 0x" ++ hexDigit (op.toNat / 4096) ++ hexDigit (op.toNat / 256) ++ hexDigit (op.toNat / 16) ++ hexDigit op.toNat

end Sys2Proof.Machine
end

