-- ==== Sys2Proof/Tests/Slice0.lean ====
section
/-! SUPPORT. Small tests. Words are written out from the patterns of R74; expected results are the rows of
95_test_vectors.md (the id in each docstring) or the examples of the rules named. Then, for each statement of the
certificates that has hypotheses, a theorem that meets all of them. -/

namespace Sys2Proof.Tests

open Sys2Proof Sys2Proof.Machine Host.Outcome

/-! ## Helpers -/

/-- The start state of the vectors: reset, a word at 0x200, some registers set. -/
def start (w : Nat) (vs : List (Reg × Byte)) : State :=
  vs.foldl (fun s p => s.setReg p.1 p.2) (State.reset.withFetchWord 16 w)

/-- The same, with the word placed at another address. -/
def startAt (a : Word) (w : Nat) (vs : List (Reg × Byte)) : State :=
  vs.foldl (fun s p => s.setReg p.1 p.2) ((State.reset.setPc a).withFetchWord 16 w)

/-- Some bytes of memory set. -/
def withBytes (base : Nat) (vs : List Byte) (s : State) : State := { s with mem := s.mem.writeMany base vs }

/-- Some keys pressed. -/
def withKeys (ks : List (Fin 16)) (s : State) : State :=
  ks.foldl (fun s k => { s with key := s.key.set k.val true }) s

/-- A state with some display cells lit, by their index. -/
def withCells (is : List Nat) (s : State) : State := is.foldl (fun s i => s.setCell (i % 64) (i / 64) true) s

/-- A state with a fault record. -/
def faulty (s : State) : State := { s with fault := some ⟨.stackUnderflow, 0x200, some 0x00EE, 0⟩ }

/-- A state with that many return addresses, all 0x202. -/
def withStack (n : Fin 17) (s : State) : State := { s with stack := Vector.replicate 16 0x202, sp := n }

/-- The state one STEP on. -/
def stepped (s : State) : State :=
  match step s with
  | .next t => t
  | _ => s

/-- What one STEP leaves in some registers. -/
def regsAfter (s : State) (rs : List Reg) : List Byte := rs.map (stepped s).reg

/-- What one STEP leaves at some addresses. -/
def bytesAfter (s : State) (as : List Nat) : List Byte := as.map (stepped s).mem.read

/-- What one STEP leaves in some display cells, by their index. -/
def cellsAfter (s : State) (is : List Nat) : List Bool := is.map fun i => (stepped s).cell (i % 64) (i / 64)

/-! ## Well-formedness -/

theorem test_wf_jp_refused : ¬ WellFormed (.jp 4096) := by decide
theorem test_wf_call_refused : ¬ WellFormed (.call 4096) := by decide
theorem test_wf_ldI_refused : ¬ WellFormed (.ldI 4096) := by decide
theorem test_wf_jpV0_refused : ¬ WellFormed (.jpV0 4096) := by decide
theorem test_wf_drw_refused : ¬ WellFormed (.drw 0 0 16) := by decide
theorem test_wf_accepted : WellFormed (.jp 4095) ∧ WellFormed (.drw 15 15 15) := by decide

/-! ## Decoding, one word for each row of R74 -/

theorem test_decode_display : decode 0x00E0 = .ok .cls ∧ decode 0xD123 = .ok (.drw 1 2 3) := by decide

theorem test_decode_jumps :
    decode 0x00EE = .ok .ret ∧ decode 0x1ABC = .ok (.jp 0xABC) ∧ decode 0x2204 = .ok (.call 0x204) ∧
    decode 0xB3F1 = .ok (.jpV0 0x3F1) := by decide

theorem test_decode_skips :
    decode 0x3A12 = .ok (.seImm 10 0x12) ∧ decode 0x4B34 = .ok (.sneImm 11 0x34) ∧
    decode 0x5120 = .ok (.seReg 1 2) ∧ decode 0x9CD0 = .ok (.sneReg 12 13) := by decide

theorem test_decode_loads :
    decode 0x6A42 = .ok (.ldImm 10 0x42) ∧ decode 0x71FF = .ok (.addImm 1 0xFF) ∧
    decode 0x8EF0 = .ok (.ldReg 14 15) ∧ decode 0xC50F = .ok (.rnd 5 0x0F) := by decide

theorem test_decode_logic :
    decode 0x8121 = .ok (.orReg 1 2) ∧ decode 0x8342 = .ok (.andReg 3 4) ∧ decode 0x8563 = .ok (.xorReg 5 6) := by
  decide

theorem test_decode_arithmetic :
    decode 0x8124 = .ok (.addReg 1 2) ∧ decode 0x8345 = .ok (.sub 3 4) ∧ decode 0x8566 = .ok (.shr 5 6) ∧
    decode 0x8787 = .ok (.subn 7 8) ∧ decode 0x89AE = .ok (.shl 9 10) := by decide

theorem test_decode_index :
    decode 0xA123 = .ok (.ldI 0x123) ∧ decode 0xF31E = .ok (.addI 3) ∧ decode 0xFA29 = .ok (.ldF 10) ∧
    decode 0xF233 = .ok (.ldB 2) ∧ decode 0xFF55 = .ok (.ldStore 15) ∧ decode 0xF265 = .ok (.ldLoad 2) := by decide

theorem test_decode_input :
    decode 0xE59E = .ok (.skp 5) ∧ decode 0xE6A1 = .ok (.sknp 6) ∧ decode 0xF407 = .ok (.ldVxDt 4) ∧
    decode 0xF30A = .ok (.ldVxK 3) ∧ decode 0xF415 = .ok (.ldDtVx 4) ∧ decode 0xF918 = .ok (.ldStVx 9) := by decide

/-- U1 to U8. -/
theorem test_unknown_words :
    decode 0x5121 = .error (.unknownOpcode 0x5121) ∧
    decode 0x8008 = .error (.unknownOpcode 0x8008) ∧
    decode 0x0123 = .error (.unknownOpcode 0x0123) ∧
    decode 0xE09F = .error (.unknownOpcode 0xE09F) ∧
    decode 0xF0FF = .error (.unknownOpcode 0xF0FF) ∧
    decode 0x9121 = .error (.unknownOpcode 0x9121) ∧
    decode 0x0000 = .error (.unknownOpcode 0x0000) ∧
    decode 0x800F = .error (.unknownOpcode 0x800F) := by decide

/-- No word is in two rows: two different rows have different match bits under their common mask. -/
theorem test_rows_disjoint :
    opcodeTable.Pairwise fun r q => r.bits &&& (r.mask &&& q.mask) ≠ q.bits &&& (r.mask &&& q.mask) := by decide

theorem test_truncated : decodeBytes [0x00] = .error .truncated ∧ decodeBytes [0x00, 0xE0, 0x12] = .ok (.cls, [0x12]) := by
  decide

/-! ## Registers and arithmetic -/

/-- A1. -/
theorem test_ldImm : regsAfter (start 0x6A42 []) [10] = [0x42] := by decide
/-- A2. -/
theorem test_addImm : regsAfter (start 0x7105 [(1, 0xFE)]) [1, VF] = [0x03, 0] := by decide
/-- A3. -/
theorem test_addImm_VF : regsAfter (start 0x7FFF [(15, 1)]) [VF] = [0] := by decide
/-- A4. -/
theorem test_ldReg : regsAfter (start 0x8120 [(2, 0x33)]) [1] = [0x33] := by decide
/-- A5. -/
theorem test_or : regsAfter (start 0x8121 [(1, 0xF0), (2, 0x0F), (15, 7)]) [1, VF] = [0xFF, 7] := by decide
/-- A6. -/
theorem test_and : regsAfter (start 0x8122 [(1, 0xF0), (2, 0x3C)]) [1] = [0x30] := by decide
/-- A7. -/
theorem test_xor : regsAfter (start 0x8123 [(1, 0xFF), (2, 0x0F)]) [1] = [0xF0] := by decide
/-- A9. -/
theorem test_addReg_carry : regsAfter (start 0x8124 [(1, 0xC8), (2, 0x38)]) [1, VF] = [0x00, 1] := by decide
/-- A11. -/
theorem test_addReg_VF : regsAfter (start 0x8F24 [(15, 0xFF), (2, 0x01)]) [VF] = [1] := by decide
/-- A14. -/
theorem test_sub_equal : regsAfter (start 0x8125 [(1, 5), (2, 5)]) [1, VF] = [0, 0] := by decide
/-- A17. -/
theorem test_sub_VF : regsAfter (start 0x81F5 [(1, 5), (15, 3)]) [1, VF] = [4, 1] := by decide
/-- A18. -/
theorem test_shr : regsAfter (start 0x8126 [(1, 0x05), (2, 0xFF)]) [1, VF] = [0x02, 1] := by decide
/-- A20. -/
theorem test_shr_VF : regsAfter (start 0x8F06 [(15, 0x03)]) [VF] = [0x00] := by decide
/-- A23. -/
theorem test_subn_borrow : regsAfter (start 0x8127 [(1, 5), (2, 3)]) [1, VF] = [0xFE, 0] := by decide
/-- A24. -/
theorem test_subn_VF : regsAfter (start 0x8F27 [(15, 3), (2, 5)]) [VF] = [4] := by decide
/-- A26. -/
theorem test_shl : regsAfter (start 0x812E [(1, 0x81)]) [1, VF] = [0x02, 1] := by decide
/-- A28. -/
theorem test_shl_VF : regsAfter (start 0x8F0E [(15, 0x81)]) [VF] = [0x02] := by decide
/-- A30, for whatever byte is drawn. -/
theorem test_rnd : (stepped (start 0xC50F [])).reg 5 = Config.randomByte 0 &&& 0x0F := rfl

/-! ## Control flow -/

/-- F1. -/
theorem test_ret : (stepped (withStack 1 (startAt 0x204 0x00EE []))).pc = 0x202 := by decide
/-- F2. -/
theorem test_ret_empty : (stepped (start 0x00EE [])).fault = some ⟨.stackUnderflow, 0x200, some 0x00EE, 0⟩ := by decide
/-- F6. -/
theorem test_jp : (stepped (start 0x1234 [])).pc = 0x234 := by decide
/-- F5. -/
theorem test_call_last_entry :
    (stepped (withStack 15 (start 0x2FFE []))).sp = 16 ∧ (stepped (withStack 15 (start 0x2FFE []))).pc = 0xFFE := by
  decide
/-- F4. -/
theorem test_call_full :
    (stepped (withStack 16 (start 0x2300 []))).fault = some ⟨.stackOverflow, 0x200, some 0x2300, 0x300⟩ := by decide
/-- F8, F9. -/
theorem test_seImm : (stepped (start 0x3012 [(0, 0x12)])).pc = 0x204 ∧ (stepped (start 0x3012 [(0, 0x13)])).pc = 0x202 := by
  decide
/-- F10, F11. -/
theorem test_sneImm : (stepped (start 0x4012 [(0, 0x12)])).pc = 0x202 ∧ (stepped (start 0x4012 [])).pc = 0x204 := by
  decide
/-- F12, F13. -/
theorem test_seReg :
    (stepped (start 0x5120 [(1, 7), (2, 7)])).pc = 0x204 ∧ (stepped (start 0x5120 [(1, 7), (2, 8)])).pc = 0x202 := by
  decide
/-- F15, F16. -/
theorem test_sneReg :
    (stepped (start 0x9120 [(1, 7), (2, 8)])).pc = 0x204 ∧ (stepped (start 0x9110 [(1, 3)])).pc = 0x202 := by decide
/-- F17. -/
theorem test_jpV0 : (stepped (start 0xB300 [(0, 0x10)])).pc = 0x310 := by decide
/-- F18. -/
theorem test_jpV0_past_memory : (stepped (start 0xBFFF [(0, 0xFF)])).pc = 0x10FE := by decide

/-! ## Index register and memory -/

/-- M1. -/
theorem test_ldI : (stepped (start 0xA123 [])).I = 0x123 := by decide
/-- M4. -/
theorem test_addI : (stepped ((start 0xF31E [(3, 0xFF)]).setI 0xFF00)).I = 0xFFFF := by decide
/-- M3. -/
theorem test_addI_wrap :
    (stepped ((start 0xF31E [(3, 1)]).setI 0xFFFF)).fault = some ⟨.indexWrap, 0x200, some 0xF31E, 0x10000⟩ := by decide
/-- M6. -/
theorem test_ldF : (stepped (start 0xF129 [(1, 0xFF)])).I = 0x4FB := by decide
/-- M7. -/
theorem test_ldB : bytesAfter ((start 0xF233 [(2, 155)]).setI 0x300) [0x300, 0x301, 0x302] = [1, 5, 5] := by decide
/-- M11. -/
theorem test_ldB_bounds :
    (stepped ((start 0xF233 [(2, 42)]).setI 0xFFE)).fault = some ⟨.memBounds, 0x200, some 0xF233, 0x1000⟩ := by decide
/-- M14. -/
theorem test_ldStore : bytesAfter ((start 0xFF55 [(15, 9)]).setI 0xFF0) [0xFFE, 0xFFF] = [0, 9] := by decide
/-- M13. -/
theorem test_ldStore_bounds :
    (stepped ((start 0xFF55 []).setI 0xFF1)).fault = some ⟨.memBounds, 0x200, some 0xFF55, 0x1000⟩ := by decide
/-- M15. -/
theorem test_ldLoad :
    regsAfter (withBytes 0x300 [9, 8, 7, 6] ((start 0xF265 []).setI 0x300)) [0, 1, 2, 3] = [9, 8, 7, 0] := by decide
/-- M16. -/
theorem test_ldLoad_bounds :
    (stepped ((start 0xF065 []).setI 0x1000)).fault = some ⟨.memBounds, 0x200, some 0xF065, 0x1000⟩ := by decide

/-! ## Display -/

/-- D2: the bits past column 63 do not appear in column 0 of this row or the next. -/
theorem test_drw_clips :
    cellsAfter (withBytes 0x300 [0xFF] ((start 0xD011 [(0, 0x3E)]).setI 0x300)) [61, 62, 63, 64, 0] =
      [false, true, true, false, false] := by decide
/-- D10: the origin is the old VF. -/
theorem test_drw_VF_origin :
    cellsAfter (withBytes 0x300 [0x80] ((start 0xDFF1 [(15, 2)]).setI 0x300)) [0, 130] = [false, true] := by decide
/-- D11. -/
theorem test_cls : cellsAfter (withCells [0, 100, 2047] (start 0x00E0 [])) [0, 100, 2047] = [false, false, false] := by
  decide

/-! ## Input and timers -/

/-- K1, K2. -/
theorem test_skp :
    (stepped (withKeys [3] (start 0xE59E [(5, 3)]))).pc = 0x204 ∧ (stepped (start 0xE59E [(5, 3)])).pc = 0x202 := by decide
/-- K5. -/
theorem test_skp_range : (stepped (start 0xE59E [(5, 16)])).fault = some ⟨.keyRange, 0x200, some 0xE59E, 16⟩ := by decide
/-- K3, K4. -/
theorem test_sknp :
    (stepped (withKeys [3] (start 0xE5A1 [(5, 3)]))).pc = 0x202 ∧ (stepped (start 0xE5A1 [(5, 3)])).pc = 0x204 := by decide
/-- K7. -/
theorem test_ldVxK_latches :
    (stepped (withKeys [9, 4] (start 0xF30A []))).wait = some 4 ∧ (stepped (withKeys [9, 4] (start 0xF30A []))).pc = 0x200 := by
  decide
/-- K9. -/
theorem test_ldVxK_completes :
    regsAfter ((withKeys [4] (start 0xF30A [])).setWait (some 9)) [3] = [9] ∧
    (stepped ((withKeys [4] (start 0xF30A [])).setWait (some 9))).pc = 0x202 := by decide
/-- T1. -/
theorem test_ldVxDt : regsAfter ((start 0xF407 []).setDT 0x2A) [4] = [0x2A] := by decide
/-- T2. -/
theorem test_ldDtVx : (stepped (start 0xF415 [(4, 0x3C)])).DT = 0x3C := by decide
/-- T3. -/
theorem test_ldStVx : (stepped (start 0xF418 [(4, 0x01)])).ST = 1 := by decide

/-! ## The step and the transactions -/

/-- U7. -/
theorem test_unknown_reported :
    stepReport State.reset = some ⟨0x200, 0x0000⟩ ∧ (stepped State.reset).pc = 0x202 := by decide
/-- P1. -/
theorem test_fetch_bounds :
    (stepped (State.reset.setPc 0xFFF)).fault = some ⟨.fetchBounds, 0xFFF, none, 0xFFF⟩ := by decide
/-- R232: the glyphs of 0, 7, A and F. -/
theorem test_font_glyphs :
    (List.range 5).map State.reset.mem.read = [0xF0, 0x90, 0x90, 0x90, 0xF0] ∧
    (List.range' 0x23 5).map State.reset.mem.read = [0xF0, 0x10, 0x20, 0x40, 0x40] ∧
    (List.range' 0x32 5).map State.reset.mem.read = [0xF0, 0x90, 0xF0, 0x90, 0x90] ∧
    (List.range' 0x4B 6).map State.reset.mem.read = [0xF0, 0x80, 0xF0, 0x80, 0x80, 0x00] := by decide
/-- H2. -/
theorem test_tick :
    (tick ((State.reset.setDT 1).setST 2)).DT = 0 ∧ (tick ((State.reset.setDT 1).setST 2)).ST = 1 := by decide

/-- The assembly column of programs A and C. -/
theorem test_assembly :
    wordText 0x71FF = "ADD V1, 0xFF" ∧ wordText 0xD012 = "DRW V0, V1, 2" ∧ wordText 0xF265 = "LD V2, [I]" ∧
    wordText 0x1212 = "JP 0x212" ∧ wordText 0xF090 = ".word 0xF090" := by decide

/-! ## Witnesses: states and operands that meet the hypotheses of each statement, at the ends of their ranges -/

theorem witness_DecodeOfEncodeIsTheInstruction :
    WellFormed (.jp 4095) ∧ WellFormed (.jp 0) ∧ WellFormed (.drw 15 15 15) ∧ WellFormed (.ldLoad 15) := by decide

theorem witness_EncodeOfDecodeIsTheWord :
    decode 0x8FF6 = .ok (.shr 15 15) ∧ decode 0xFF65 = .ok (.ldLoad 15) ∧ decode 0x1000 = .ok (.jp 0) := by decide

theorem witness_WordDecodesToTheRowThatSelectsIt :
    decode 0xFF65 = .ok (.ldLoad 15) ∧
    (⟨0xF0FF, 0xF065⟩ : Row) ∈ opcodeTable ∧ Row.selects ⟨0xF0FF, 0xF065⟩ 0xFF65 = true ∧
    (⟨0xFFFF, 0x00E0⟩ : Row) ∈ opcodeTable ∧ Row.selects ⟨0xFFFF, 0x00E0⟩ 0x00E0 = true := by decide

theorem witness_UnknownWordsOfTheGroups :
    (fieldT 0x00EF ≠ 5 ∧ fieldT 0x00EF ≠ 9 ∧ decode 0x00EF = .error (.unknownOpcode 0x00EF)) ∧
    (fieldT 0x8008 ≠ 5 ∧ fieldT 0x8008 ≠ 9 ∧ decode 0x8008 = .error (.unknownOpcode 0x8008)) ∧
    (fieldT 0xE0A0 ≠ 5 ∧ fieldT 0xE0A0 ≠ 9 ∧ decode 0xE0A0 = .error (.unknownOpcode 0xE0A0)) ∧
    (fieldT 0xFFFF ≠ 5 ∧ fieldT 0xFFFF ≠ 9 ∧ decode 0xFFFF = .error (.unknownOpcode 0xFFFF)) ∧
    (fieldT 0x1000 ≠ 5 ∧ fieldT 0x1000 ≠ 9) := by decide

theorem witness_GroupsFiveAndNineNeedAZeroLowNibble : fieldT 0x5FFF = 5 ∧ fieldT 0x9000 = 9 := by decide

theorem witness_StepRunsTheDecodedInstruction :
    ∀ s ∈ [startAt 0xFFE 0x00E0 [], startAt 0x201 0x00E0 []], s.fault = none ∧ s.pc.toNat ≤ 4094 ∧
      s.mem.read s.pc.toNat = 0x00 ∧ s.mem.read (s.pc.toNat + 1) = 0xE0 ∧
      (0x00E0 : Word).toNat = (0x00 : Byte).toNat * 256 + (0xE0 : Byte).toNat ∧ decode 0x00E0 = .ok .cls := by decide

theorem witness_UnknownOpcodeIsAReportedNoOp :
    State.reset.fault = none ∧ fetch State.reset = some 0x0000 ∧ decode 0x0000 = .error (.unknownOpcode 0x0000) := by
  decide

theorem witness_FetchPastMemoryFaults :
    (State.reset.setPc 0xFFF).fault = none ∧ 4095 ≤ (State.reset.setPc 0xFFF).pc.toNat := by decide

theorem witness_FaultedCoreOnlyTicksAndTakesKeys : (faulty State.reset).fault ≠ none := by decide

theorem witness_RaisingStepChangesOnlyTheRecord :
    (∃ t r, (start 0x00EE []).fault = none ∧ step (start 0x00EE []) = next t ∧ t.fault = some r) ∧
    (∃ t r, (State.reset.setPc 0xFFF).fault = none ∧ step (State.reset.setPc 0xFFF) = next t ∧ t.fault = some r) :=
  ⟨⟨_, _, rfl, rfl, rfl⟩, ⟨_, _, rfl, rfl, rfl⟩⟩

theorem witness_InstructionsRaiseExactlyForTheirCauses :
    (∃ t, exec (.call 0x300) (withStack 16 State.reset) = next t ∧ t.fault ≠ none) ∧
    (∃ t, exec .ret State.reset = next t ∧ t.fault ≠ none) ∧
    (∃ t, exec (.drw 0 0 2) (State.reset.setI 0xFFF) = next t ∧ t.fault ≠ none) ∧
    (∃ t, exec (.ldB 0) (State.reset.setI 4094) = next t ∧ t.fault ≠ none) ∧
    (∃ t, exec (.ldStore 15) (State.reset.setI 4081) = next t ∧ t.fault ≠ none) ∧
    (∃ t, exec (.ldLoad 0) (State.reset.setI 4096) = next t ∧ t.fault ≠ none) ∧
    (∃ t, exec (.addI 3) ((State.reset.setReg 3 1).setI 0xFFFF) = next t ∧ t.fault ≠ none) ∧
    (∃ t, exec (.skp 5) (State.reset.setReg 5 16) = next t ∧ t.fault ≠ none) ∧
    (∃ t, exec (.sknp 5) (State.reset.setReg 5 16) = next t ∧ t.fault ≠ none) ∧
    (∃ t, exec (.ldB 0) (State.reset.setI 4093) = next t ∧ t.fault = none) :=
  ⟨⟨_, rfl, Option.some_ne_none _⟩, ⟨_, rfl, Option.some_ne_none _⟩, ⟨_, rfl, Option.some_ne_none _⟩,
    ⟨_, rfl, Option.some_ne_none _⟩, ⟨_, rfl, Option.some_ne_none _⟩, ⟨_, rfl, Option.some_ne_none _⟩,
    ⟨_, rfl, Option.some_ne_none _⟩, ⟨_, rfl, Option.some_ne_none _⟩, ⟨_, rfl, Option.some_ne_none _⟩, ⟨_, rfl, rfl⟩⟩

/-- The last place that fits: V0 to VF at 4080 to 4095, fetched at 4094. -/
theorem witness_FetchReadsWhatAStoreWrote :
    14 < (15 : Reg).val ∧ MemoryCanonical (State.reset.setI 4080) ∧ (State.reset.setI 4080).I.toNat + (15 : Reg).val ≤ 4095 ∧
    ∃ t, ∃ u : State, exec (.ldStore 15) (State.reset.setI 4080) = next t ∧ u.mem = t.mem ∧ u.pc.toNat = (State.reset.setI 4080).I.toNat + 14 :=
  ⟨by decide, by decide, by decide, _, (State.reset.setI 4080).setPc 4094, rfl, rfl, rfl⟩

theorem witness_OnlyDestinationRegistersChange :
    (∃ t, exec (.addReg 1 2) State.reset = next t) ∧ (3 : Reg) ∉ writtenRegs (.addReg 1 2) ∧
    (∃ t, exec (.ldLoad 14) State.reset = next t) ∧ (15 : Reg) ∉ writtenRegs (.ldLoad 14) :=
  ⟨⟨_, rfl⟩, by decide, ⟨_, rfl⟩, by decide⟩

theorem witness_OnlyStoredBytesChange :
    MemoryCanonical (State.reset.setI 4093) ∧ (∃ t, exec (.ldB 0) (State.reset.setI 4093) = next t) ∧
    4092 < (State.reset.setI 4093).I.toNat ∧
    MemoryCanonical State.reset ∧ (∃ t, exec (.ldStore 15) State.reset = next t) ∧
    State.reset.I.toNat + storedLen (.ldStore 15) ≤ 16 ∧ (∃ t, exec .cls State.reset = next t) ∧
    State.reset.I.toNat + storedLen .cls ≤ 0 :=
  ⟨by decide, ⟨_, rfl⟩, by decide, by decide, ⟨_, rfl⟩, by decide, ⟨_, rfl⟩, by decide⟩

theorem witness_OnlyDisplayInstructionsChangeCells :
    ∃ t, exec (.drw 0 0 5) State.reset = next t ∧ Instr.drw 0 0 5 ≠ .cls ∧ t.cell 0 0 ≠ State.reset.cell 0 0 :=
  ⟨_, rfl, by decide, by decide⟩

theorem witness_OnlyCallAndRetChangeTheStack :
    (∃ t, exec (.call 0x300) (withStack 15 State.reset) = next t) ∧ (14 : Fin 16).val ≠ (withStack 15 State.reset).sp.val ∧
    (∃ t, exec .ret (withStack 16 State.reset) = next t) ∧ (∀ nnn, Instr.ret ≠ .call nnn) ∧
    (∃ t, exec .cls State.reset = next t) ∧ (∀ nnn, Instr.cls ≠ .call nnn) ∧ Instr.cls ≠ .ret :=
  ⟨⟨_, rfl⟩, by decide, ⟨_, rfl⟩, nofun, ⟨_, rfl⟩, nofun, nofun⟩

theorem witness_IndexAndTimersChangeOnlyByTheirWriters :
    (∃ t, exec (.ldLoad 15) State.reset = next t) ∧ (∀ nnn, Instr.ldLoad 15 ≠ .ldI nnn) ∧
    (∀ x, Instr.ldLoad 15 ≠ .addI x) ∧ (∀ x, Instr.ldLoad 15 ≠ .ldF x) ∧ (∀ x, Instr.ldLoad 15 ≠ .ldDtVx x) ∧
    (∀ x, Instr.ldLoad 15 ≠ .ldStVx x) := ⟨⟨_, rfl⟩, nofun, nofun, nofun, nofun, nofun⟩

theorem witness_KeysLatchAndDrawsChangeOnlyByTheirWriters :
    (∃ t, exec (.skp 0) State.reset = next t) ∧ (∀ x, Instr.skp 0 ≠ .ldVxK x) ∧ (∀ x kk, Instr.skp 0 ≠ .rnd x kk) :=
  ⟨⟨_, rfl⟩, nofun, nofun⟩

theorem witness_OnlyControlFlowMovesPc :
    (∃ t, exec (.ldStore 15) State.reset = next t ∧ t.fault = none) ∧ movesPc (.ldStore 15) = false ∧
    State.reset.fault = none ∧ (∃ t, exec .ret (faulty State.reset) = next t) ∧ (faulty State.reset).fault ≠ none :=
  ⟨⟨_, rfl, rfl⟩, rfl, rfl, ⟨_, rfl⟩, by decide⟩

theorem witness_KeysAndSoundTimerReachOnlyTheirReaders :
    (∃ t, exec (.shr 1 2) State.reset = next t) ∧ (∀ x, Instr.shr 1 2 ≠ .skp x) ∧ (∀ x, Instr.shr 1 2 ≠ .sknp x) ∧
    (∀ x, Instr.shr 1 2 ≠ .ldVxK x) ∧ (∀ x, Instr.shr 1 2 ≠ .ldStVx x) ∧ (∃ t, exec (.shl 1 15) State.reset = next t) :=
  ⟨⟨_, rfl⟩, nofun, nofun, nofun, nofun, ⟨_, rfl⟩⟩

/-- No row with an index past memory; one row at 4095; a row cut at the bottom; a hit; and a clear display. -/
theorem witness_DrwInvertsTheCellsOfItsSprite :
    rowsDrawn (State.reset.setI 0xFFFF) 0 0 = 0 ∧
    (State.reset.setI 4095).I.toNat + rowsDrawn (State.reset.setI 4095) 0 1 ≤ 4096 ∧
    ((State.reset.setReg 1 31).setI 4095).I.toNat + rowsDrawn ((State.reset.setReg 1 31).setI 4095) 1 15 ≤ 4096 ∧
    ((withCells [0] State.reset).cell 0 0 = true ∧ SpriteAt (withCells [0] State.reset) 0 0 5 0 0 = true) ∧
    (∀ px py, px < 64 → py < 32 → State.reset.cell px py = true → SpriteAt State.reset 0 0 5 px py = false) :=
  ⟨by decide, by decide, by decide, by decide, fun px py _ _ h => by simp at h⟩

/-- One row at 4095 drawn with both indices in memory; and no row with both indices past it. -/
theorem witness_DrawingTwiceRestoresTheDisplay :
    (∃ t, exec (.drw 0 1 1) (withBytes 0xFFF [0x80] (State.reset.setI 4095)) = next t ∧
      (withBytes 0xFFF [0x80] (State.reset.setI 4095)).I.toNat +
        rowsDrawn (withBytes 0xFFF [0x80] (State.reset.setI 4095)) 1 1 ≤ 4096 ∧
      t.I.toNat + rowsDrawn (withBytes 0xFFF [0x80] (State.reset.setI 4095)) 1 1 ≤ 4096 ∧
      (t.reg 0).toNat % 64 = ((withBytes 0xFFF [0x80] (State.reset.setI 4095)).reg 0).toNat % 64 ∧
      (t.reg 1).toNat % 32 = ((withBytes 0xFFF [0x80] (State.reset.setI 4095)).reg 1).toNat % 32 ∧
      ∀ r, r < 1 → t.mem.read (t.I.toNat + r) =
        (withBytes 0xFFF [0x80] (State.reset.setI 4095)).mem.read
          ((withBytes 0xFFF [0x80] (State.reset.setI 4095)).I.toNat + r)) ∧
    (∃ t, exec (.drw 0 1 0) (State.reset.setI 0xFFFF) = next t ∧ rowsDrawn (State.reset.setI 0xFFFF) 1 0 = 0 ∧
      (t.reg 0).toNat % 64 = ((State.reset.setI 0xFFFF).reg 0).toNat % 64 ∧
      (t.reg 1).toNat % 32 = ((State.reset.setI 0xFFFF).reg 1).toNat % 32 ∧
      ∀ r, r < 0 → t.mem.read (t.I.toNat + r) =
        (State.reset.setI 0xFFFF).mem.read ((State.reset.setI 0xFFFF).I.toNat + r)) :=
  ⟨⟨_, rfl, by decide, by decide, rfl, rfl, fun _ _ => rfl⟩, ⟨_, rfl, by decide, rfl, rfl, fun _ _ => rfl⟩⟩

theorem witness_RetPopsTheNewestReturnAddress :
    (withStack 1 State.reset).sp.val = (0 : Fin 16).val + 1 ∧ (withStack 16 State.reset).sp.val = (15 : Fin 16).val + 1 ∧
    (withStack 0 State.reset).sp.val = 0 := by decide

theorem witness_CallPushesTheAddressAfterIt :
    4095 < 4096 ∧ (withStack 0 State.reset).sp.val = (0 : Fin 16).val ∧
    (withStack 15 State.reset).sp.val = (15 : Fin 16).val ∧ (withStack 16 State.reset).sp.val = 16 := by decide

theorem witness_RetAfterCallResumesAfterTheCall :
    (withStack 15 State.reset).sp.val < 16 ∧
    ∃ t, ∃ u : State, exec (.call 0x300) (withStack 15 State.reset) = next t ∧ u.sp = t.sp ∧ u.stack = t.stack :=
  ⟨by decide, _, _, rfl, rfl, rfl⟩

theorem witness_JumpsReplacePc : 0 < 4096 ∧ 4095 < 4096 := by decide

/-- The clauses over register numbers of the statements about 8xy4 to 8xyE and Cxkk. -/
theorem witness_register_clauses :
    (1 : Reg) ≠ VF ∧ (2 : Reg) ≠ VF ∧ (VF : Reg) = VF ∧ (1 : Reg) = 1 ∧ (3 : Reg) ≠ 1 ∧ (3 : Reg) ≠ VF ∧ (0 : Byte) = 0 := by
  decide

theorem witness_IndexLoads : 0 < 4096 ∧ 4095 < 4096 := by decide

theorem witness_AddToIndexNeverWraps :
    ((State.reset.setReg 3 0xFF).setI 0xFF00).I.toNat + (((State.reset.setReg 3 0xFF).setI 0xFF00).reg 3).toNat ≤ 65535 ∧
    ((State.reset.setReg 3 1).setI 0xFFFF).I.toNat + (((State.reset.setReg 3 1).setI 0xFFFF).reg 3).toNat > 65535 := by decide

theorem witness_BcdStoresThreeDigits :
    MemoryCanonical (State.reset.setI 4093) ∧ (State.reset.setI 4093).I.toNat + 2 ≤ 4095 ∧
    MemoryCanonical (State.reset.setI 4094) ∧ (State.reset.setI 4094).I.toNat + 2 > 4095 := by decide

theorem witness_StoreWritesVZeroToVx :
    MemoryCanonical (State.reset.setI 4080) ∧ (State.reset.setI 4080).I.toNat + (15 : Reg).val ≤ 4095 ∧
    MemoryCanonical (State.reset.setI 4081) ∧ (State.reset.setI 4081).I.toNat + (15 : Reg).val > 4095 := by decide

theorem witness_LoadReadsVZeroToVx :
    (State.reset.setI 4095).I.toNat + (0 : Reg).val ≤ 4095 ∧ (State.reset.setI 4096).I.toNat + (0 : Reg).val > 4095 := by decide

theorem witness_LoadRestoresWhatStoreSaved :
    MemoryCanonical (State.reset.setI 4080) ∧ (State.reset.setI 4080).I.toNat + (15 : Reg).val ≤ 4095 ∧
    ∃ t, ∃ u : State, exec (.ldStore 15) (State.reset.setI 4080) = next t ∧ u.I = (State.reset.setI 4080).I ∧
      ∀ a, (State.reset.setI 4080).I.toNat ≤ a → a ≤ (State.reset.setI 4080).I.toNat + (15 : Reg).val →
        u.mem.read a = t.mem.read a :=
  ⟨by decide, by decide, _, _, rfl, rfl, fun _ _ _ => rfl⟩

theorem witness_KeySkipsReadTheNamedKey :
    ((State.reset.setReg 5 15).reg 5).toNat = (15 : Fin 16).val ∧ (State.reset.reg 5).toNat = (0 : Fin 16).val ∧
    ((State.reset.setReg 5 16).reg 5).toNat > 15 := by decide

theorem witness_KeyWaitLatchesAndStores :
    (State.reset.wait = none ∧ ∀ k, State.reset.pressed k = false) ∧
    ((withKeys [15] State.reset).wait = none ∧ (withKeys [15] State.reset).pressed 15 = true ∧
      ∀ j, j < 15 → (withKeys [15] State.reset).pressed j = false) ∧
    (((withKeys [9] State.reset).setWait (some 9)).wait = some 9 ∧
      ((withKeys [9] State.reset).setWait (some 9)).pressed 9 = true) ∧
    ((State.reset.setWait (some 9)).wait = some 9 ∧ (State.reset.setWait (some 9)).pressed 9 = false) := by decide

theorem witness_PressAndReleaseCompleteTheKeyWait :
    (start 0xF30A []).fault = none ∧ (start 0xF30A []).wait = none ∧ FetchesInstr (start 0xF30A []) (.ldVxK 3) ∧
    ∀ j, (start 0xF30A []).pressed j = false :=
  ⟨rfl, rfl, ⟨0xF30A, by decide, by decide⟩, by decide⟩

theorem witness_StepKeepsMemoryCanonical :
    MemoryCanonical (start 0xF055 [(0, 1)]) ∧ ∃ t, step (start 0xF055 [(0, 1)]) = next t := ⟨by decide, _, rfl⟩

theorem witness_StepKeepsPcBounded :
    PcBounded (start 0xBFFF [(0, 0xFF)]) ∧ ∃ t, step (start 0xBFFF [(0, 0xFF)]) = next t ∧ t.pc.toNat = 0x10FE :=
  ⟨by decide, _, rfl, rfl⟩

theorem witness_StepKeepsWaitAtKeyWait :
    WaitsAtKeyWait ((withKeys [9] (start 0xF30A [])).setWait (some 9)) ∧
    ∃ t, step ((withKeys [9] (start 0xF30A [])).setWait (some 9)) = next t ∧ t.wait = some 9 :=
  ⟨fun _ _ => ⟨rfl, 3, 0xF30A, by decide, by decide⟩, _, rfl, rfl⟩

theorem witness_StepKeepsFaultReproducible :
    FaultReproducible (faulty (start 0x00EE [])) ∧ (faulty (start 0x00EE [])).fault ≠ none ∧
    ∃ t, step (faulty (start 0x00EE [])) = next t := ⟨fun _ => rfl, by decide, _, rfl⟩

theorem witness_HostTransactionsKeepTheInvariants :
    (Transaction.tick ≠ .step ∧ ∃ t, transact .tick State.reset = next t) ∧
    (Transaction.key 15 true ≠ .step ∧ ∃ t, transact (.key 15 true) State.reset = next t) ∧
    (Transaction.construct Config.font (fun _ => 0xFF) [0x12, 0x00] ≠ .step ∧
      ∃ t, transact (.construct Config.font (fun _ => 0xFF) [0x12, 0x00]) (faulty State.reset) = next t) ∧
    MemoryCanonical State.reset ∧ PcBounded State.reset ∧ FaultReproducible (faulty (start 0x00EE [])) :=
  ⟨⟨nofun, _, rfl⟩, ⟨nofun, _, rfl⟩, ⟨nofun, _, construct_fits _ _ (by decide) _⟩, by decide, by decide, fun _ => rfl⟩

theorem witness_KeySetsOneKey : 0 ≤ 15 ∧ 15 ≤ 15 ∧ 16 > 15 := by decide

theorem witness_ConstructBuildsTheStartState :
    (List.replicate 3584 (0 : Byte)).length ≤ 3584 ∧ 79 < 80 ∧ 3583 < (List.replicate 3584 (0 : Byte)).length ∧
    ([] : List Byte).length ≤ 3584 ∧ 80 ≤ 511 ∧ 511 < 512 ∧ 512 + ([] : List Byte).length ≤ 4095 ∧
    (List.replicate 3585 (0 : Byte)).length > 3584 := by
  simp only [List.length_replicate, List.length_nil]
  omega

theorem witness_IdleLoopIsAFixpoint : IdleLoop (start 0x1200 []) := ⟨rfl, 0x1200, 0x200, by decide, by decide, rfl⟩

end Sys2Proof.Tests
end

/-! The fields as bits of the word (R71), and which words are unknown opcodes (R73 to R80). -/

namespace Sys2Proof

/-! ## The fields as bits of the word -/

/-- ANDing with a mask of `k` low ones keeps the `k` low bits. -/
theorem toNat_and_lowMask (w : Word) (k : Nat) (hk : k ≤ 16) :
    (w &&& BitVec.ofNat 16 (2 ^ k - 1)).toNat = w.toNat % 2 ^ k := by
  have hfit : 2 ^ k - 1 < 2 ^ 16 := Nat.lt_of_lt_of_le (by simp) (Nat.pow_le_pow_right Nat.two_pos hk)
  rw [BitVec.toNat_and, BitVec.toNat_ofNat, Nat.mod_eq_of_lt hfit, Nat.and_two_pow_sub_one_eq_mod]

theorem fieldT_eq_extract (op : Word) : fieldT op = (op.extractLsb' 12 4).toNat := by
  have := op.isLt
  simp only [fieldT, BitVec.extractLsb'_toNat, Nat.shiftRight_eq_div_pow]
  omega

theorem fieldX_eq_extract (op : Word) : (fieldX op).val = (op.extractLsb' 8 4).toNat := by
  simp [fieldX, Nat.shiftRight_eq_div_pow]

theorem fieldY_eq_extract (op : Word) : (fieldY op).val = (op.extractLsb' 4 4).toNat := by
  simp [fieldY, Nat.shiftRight_eq_div_pow]

theorem fieldN_eq_extract (op : Word) : fieldN op = (op.extractLsb' 0 4).toNat := by
  simp [fieldN]

theorem fieldKK_eq_extract (op : Word) : fieldKK op = op.extractLsb' 0 8 :=
  BitVec.eq_of_toNat_eq (by simp [fieldKK])

theorem fieldNNN_eq_extract (op : Word) : fieldNNN op = (op.extractLsb' 0 12).toNat := by
  simp [fieldNNN]

theorem fieldNNN_eq_and (op : Word) : fieldNNN op = (op &&& 0xFFF).toNat :=
  (toNat_and_lowMask op 12 (by decide)).symm

theorem fieldKK_eq_and (op : Word) : (fieldKK op).toNat = (op &&& 0xFF).toNat :=
  (toNat_and_lowMask op 8 (by decide)).symm

theorem fieldN_eq_and (op : Word) : fieldN op = (op &&& 0xF).toNat :=
  (toNat_and_lowMask op 4 (by decide)).symm

theorem fieldX_eq_shift_and (op : Word) : (fieldX op).val = ((op >>> 8) &&& 0xF).toNat := by
  rw [← fieldN_eq_and]
  simp [fieldX, fieldN, Nat.shiftRight_eq_div_pow]

theorem fieldY_eq_shift_and (op : Word) : (fieldY op).val = ((op >>> 4) &&& 0xF).toNat := by
  rw [← fieldN_eq_and]
  simp [fieldY, fieldN, Nat.shiftRight_eq_div_pow]

/-- Settles O4, field by field. -/
theorem fieldsAreTheBitsOfTheWord : Obligations.FieldsAreTheBitsOfTheWord := fun op =>
  ⟨fieldT_eq_extract op, fieldX_eq_extract op, fieldY_eq_extract op, fieldN_eq_extract op, fieldKK_eq_extract op,
    fieldNNN_eq_extract op, fieldNNN_eq_and op, fieldKK_eq_and op, fieldN_eq_and op, fieldX_eq_shift_and op,
    fieldY_eq_shift_and op⟩

/-! ## The unknown opcodes of each group -/

/-- The decoder's result `r` on `op` is the unknown opcode where `p` holds, and an instruction everywhere else. -/
def UnknownExactlyIf (op : Word) (r : Except Reject Instr) (p : Prop) [Decidable p] : Prop :=
  if p then r = .error (.unknownOpcode op) else ∃ i, r = .ok i

@[simp] theorem unknownExactlyIf_ok (op : Word) (i : Instr) (p : Prop) [Decidable p] :
    UnknownExactlyIf op (.ok i) p ↔ ¬ p := by
  by_cases h : p <;> simp [UnknownExactlyIf, h]

@[simp] theorem unknownExactlyIf_error (op : Word) (p : Prop) [Decidable p] :
    UnknownExactlyIf op (.error (.unknownOpcode op)) p ↔ p := by
  by_cases h : p <;> simp [UnknownExactlyIf, h]

theorem decodeGroup0_unknownExactlyIf (op : Word) :
    UnknownExactlyIf op (decodeGroup0 op) (op ≠ 0x00E0 ∧ op ≠ 0x00EE) := by
  unfold decodeGroup0
  split_ifs with hcls hret
  · simp [hcls]
  · simp [hret]
  · exact (unknownExactlyIf_error ..).2 ⟨hcls, hret⟩

/-- The arms with an `n` of their own give instructions; the default arm is reached by every other `n` (R77). -/
theorem decodeGroup8_unknownExactlyIf (op : Word) :
    UnknownExactlyIf op (decodeGroup8 op) (fieldN op ∉ [0, 1, 2, 3, 4, 5, 6, 7, 0xE]) := by
  unfold decodeGroup8
  split <;> simp_all

theorem decodeGroupE_unknownExactlyIf (op : Word) :
    UnknownExactlyIf op (decodeGroupE op) (fieldKK op ∉ [0x9E, 0xA1]) := by
  unfold decodeGroupE
  split_ifs with hskp hsknp
  · simp [hskp]
  · simp [hsknp]
  · exact (unknownExactlyIf_error ..).2 (by simp_all)

/-- Each selector that succeeds gives an instruction; the last branch is reached when all nine fail (R79). -/
theorem decodeGroupF_unknownExactlyIf (op : Word) :
    UnknownExactlyIf op (decodeGroupF op)
      (fieldKK op ∉ [0x07, 0x0A, 0x15, 0x18, 0x1E, 0x29, 0x33, 0x55, 0x65]) := by
  unfold decodeGroupF
  split_ifs <;> simp_all

/-! ## The group a word is decoded in -/

theorem decode_of_group0 {op : Word} (h : fieldT op = 0) : decode op = decodeGroup0 op := by
  simp [decode, h]

theorem decode_of_group8 {op : Word} (h : fieldT op = 8) : decode op = decodeGroup8 op := by
  simp [decode, h]

theorem decode_of_groupE {op : Word} (h : fieldT op = 0xE) : decode op = decodeGroupE op := by
  simp [decode, h]

theorem decode_of_groupF {op : Word} (h : fieldT op = 0xF) : decode op = decodeGroupF op := by
  simp [decode, h]

/-- Where the group alone selects the instruction, every word is one (R74). -/
theorem decode_ok_of_group {op : Word} (h : fieldT op ∉ [0, 5, 8, 9, 0xE, 0xF]) : ∃ i, decode op = .ok i := by
  have hlt := fieldT_lt op
  unfold decode
  generalize fieldT op = t at h hlt
  interval_cases t <;> simp at h ⊢

/-- Settles O5, group by group. -/
theorem unknownWordsOfTheGroups : Obligations.UnknownWordsOfTheGroups := by
  intro op h5 h9
  by_cases h0 : fieldT op = 0
  · simpa [UnknownExactlyIf, decode_of_group0 h0, h0] using decodeGroup0_unknownExactlyIf op
  by_cases h8 : fieldT op = 8
  · simpa [UnknownExactlyIf, decode_of_group8 h8, h8] using decodeGroup8_unknownExactlyIf op
  by_cases hE : fieldT op = 0xE
  · simpa [UnknownExactlyIf, decode_of_groupE hE, hE] using decodeGroupE_unknownExactlyIf op
  by_cases hF : fieldT op = 0xF
  · simpa [UnknownExactlyIf, decode_of_groupF hF, hF] using decodeGroupF_unknownExactlyIf op
  simpa [h0, h8, hE, hF] using decode_ok_of_group (by simp [h0, h5, h8, h9, hE, hF])

end Sys2Proof

/-! CLS (R100). -/

namespace Sys2Proof

open Sys2Proof.Machine Host.Outcome

/-- CLS has no cause to raise for: it clears the display from every state (R100). -/
theorem exec_cls (s : State) : exec .cls s = next s.clearDisplay := rfl

/-- Settles O24: CLS leaves the cleared display, and `clearDisplay` keeps the registers, I, memory and pc. -/
theorem clsClearsEveryCell : Obligations.ClsClearsEveryCell := fun s =>
  ⟨s.clearDisplay, exec_cls s, fun px py _ _ => clearDisplay_cell s px py, clearDisplay_reg s, clearDisplay_I s,
    clearDisplay_mem s, clearDisplay_pc s⟩

end Sys2Proof

/-! The compare-and-skip instructions (R114 to R117). -/

namespace Sys2Proof

open Sys2Proof.Machine Host.Outcome

theorem exec_seImm (x : Reg) (kk : Byte) (s : State) : exec (.seImm x kk) s = next (s.skipIf (s.reg x == kk)) := rfl

theorem exec_sneImm (x : Reg) (kk : Byte) (s : State) : exec (.sneImm x kk) s = next (s.skipIf (s.reg x != kk)) := rfl

theorem exec_seReg (x y : Reg) (s : State) : exec (.seReg x y) s = next (s.skipIf (s.reg x == s.reg y)) := rfl

theorem exec_sneReg (x y : Reg) (s : State) : exec (.sneReg x y) s = next (s.skipIf (s.reg x != s.reg y)) := rfl

/-- A skip changes pc at most. -/
theorem skipIf_eq_set_pc (s : State) (c : Bool) : s.skipIf c = { s with pc := (s.skipIf c).pc } := by
  rw [skipIf_eq]
  rfl

/-- A skip's pc by its condition `p`, the sum wrapping at 16 bits (R16). -/
theorem skipIf_pc_toNat (s : State) {c : Bool} {p : Prop} [Decidable p] (hc : c = true ↔ p) :
    (s.skipIf c).pc.toNat = if p then (s.pc.toNat + 2) % 65536 else s.pc.toNat := by
  rw [skipIf_eq, setPc_pc]
  by_cases hp : p
  · rw [if_pos (hc.2 hp), if_pos hp, BitVec.toNat_add]
    rfl
  · rw [if_neg (mt hc.1 hp), if_neg hp]

/-- The comparison of bytes is that of their unsigned values. -/
theorem byte_beq_iff_toNat_eq (a b : Byte) : (a == b) = true ↔ a.toNat = b.toNat :=
  beq_iff_eq.trans BitVec.toNat_inj.symm

theorem byte_bne_iff_toNat_ne (a b : Byte) : (a != b) = true ↔ a.toNat ≠ b.toNat :=
  bne_iff_ne.trans BitVec.toNat_inj.symm.not

/-- Settles O31: each of the four is a skip, and differs from the others in its condition only. -/
theorem skipsAddTwoWhenTheComparisonHolds : Obligations.SkipsAddTwoWhenTheComparisonHolds := fun x y kk s =>
  ⟨⟨_, exec_seImm x kk s, skipIf_eq_set_pc s _, skipIf_pc_toNat s (byte_beq_iff_toNat_eq ..)⟩,
    ⟨_, exec_sneImm x kk s, skipIf_eq_set_pc s _, skipIf_pc_toNat s (byte_bne_iff_toNat_ne ..)⟩,
    ⟨_, exec_seReg x y s, skipIf_eq_set_pc s _, skipIf_pc_toNat s (byte_beq_iff_toNat_eq ..)⟩,
    ⟨_, exec_sneReg x y s, skipIf_eq_set_pc s _, skipIf_pc_toNat s (byte_bne_iff_toNat_ne ..)⟩⟩

end Sys2Proof

/-! The loads, the bitwise operations and ADD Vx, kk: the instructions that write Vx alone (R132 to R137). -/

namespace Sys2Proof

open Sys2Proof.Machine Host.Outcome

theorem exec_ldImm (x : Reg) (kk : Byte) (s : State) : exec (.ldImm x kk) s = next (s.setReg x kk) := rfl

theorem exec_addImm (x : Reg) (kk : Byte) (s : State) : exec (.addImm x kk) s = next (s.setReg x (s.reg x + kk)) := rfl

theorem exec_ldReg (x y : Reg) (s : State) : exec (.ldReg x y) s = next (s.setReg x (s.reg y)) := rfl

theorem exec_orReg (x y : Reg) (s : State) : exec (.orReg x y) s = next (s.setReg x (s.reg x ||| s.reg y)) := rfl

theorem exec_andReg (x y : Reg) (s : State) : exec (.andReg x y) s = next (s.setReg x (s.reg x &&& s.reg y)) := rfl

theorem exec_xorReg (x y : Reg) (s : State) : exec (.xorReg x y) s = next (s.setReg x (s.reg x ^^^ s.reg y)) := rfl

/-- A register write changes the register file at most. -/
theorem setReg_eq_set_V (s : State) (x : Reg) (v : Byte) : s.setReg x v = { s with V := (s.setReg x v).V } := rfl

/-- Any reading `f` of a register's byte (a bit of it, its unsigned value) after a register write: that of the byte written
in the register written, the old one elsewhere. -/
theorem apply_setReg_reg {α : Sort*} (f : Byte → α) (s : State) (x : Reg) (v : Byte) (r : Reg) :
    f ((s.setReg x v).reg r) = if r = x then f v else f (s.reg r) := by
  rw [setReg_reg, apply_ite f]

/-- Settles O32: each of the five is one register write, and differs from the others in the byte written only. -/
theorem loadsAndLogicWriteOnlyVx : Obligations.LoadsAndLogicWriteOnlyVx := by
  intro x y kk s
  refine ⟨⟨_, exec_ldImm x kk s, setReg_eq_set_V .., setReg_reg s x kk⟩,
    ⟨_, exec_ldReg x y s, setReg_eq_set_V .., setReg_reg s x (s.reg y)⟩,
    ⟨_, exec_orReg x y s, setReg_eq_set_V .., fun r b => ?_⟩,
    ⟨_, exec_andReg x y s, setReg_eq_set_V .., fun r b => ?_⟩,
    ⟨_, exec_xorReg x y s, setReg_eq_set_V .., fun r b => ?_⟩⟩
  · rw [apply_setReg_reg (·.getLsbD b), BitVec.getLsbD_or]
  · rw [apply_setReg_reg (·.getLsbD b), BitVec.getLsbD_and]
  · rw [apply_setReg_reg (·.getLsbD b), BitVec.getLsbD_xor]

/-- Settles O33: the one register write is of the byte sum, whose unsigned value is the sum modulo 256. -/
theorem addImmediateWrapsWithoutAFlag : Obligations.AddImmediateWrapsWithoutAFlag := by
  intro x kk s
  refine ⟨_, exec_addImm x kk s, setReg_eq_set_V .., fun r => ?_⟩
  rw [apply_setReg_reg BitVec.toNat, BitVec.toNat_add]

end Sys2Proof

/-! LD I, nnn and LD F, Vx: the loads of the index register (R151, R154). -/

namespace Sys2Proof

open Sys2Proof.Machine Host.Outcome

theorem exec_ldI (nnn : Nat) (s : State) : exec (.ldI nnn) s = next (s.setI (zextAddr nnn)) := rfl

theorem exec_ldF (x : Reg) (s : State) : exec (.ldF x) s = next (s.setI (zextByte (s.reg x) * 5)) := rfl

/-- An index write changes I at most. -/
theorem setI_eq_set_I (s : State) (w : Word) : s.setI w = { s with I := (s.setI w).I } := rfl

/-- Zero extension keeps an address of 12 bits. -/
theorem zextAddr_toNat {nnn : Nat} (h : nnn < 4096) : (zextAddr nnn).toNat = nnn :=
  (BitVec.toNat_ofNat ..).trans (Nat.mod_eq_of_lt (Nat.lt_trans h (by decide)))

/-- Zero extension keeps the unsigned value of a byte. -/
theorem zextByte_toNat (b : Byte) : (zextByte b).toNat = b.toNat :=
  (BitVec.toNat_ofNat ..).trans (Nat.mod_eq_of_lt (Nat.lt_trans b.isLt (by decide)))

/-- The glyph address of any byte is at most 1275, so the 16-bit product is the exact one (R154). -/
theorem zextByte_mul_five_toNat (b : Byte) : (zextByte b * 5).toNat = b.toNat * 5 := by
  have hfit : b.toNat * 5 < 2 ^ 16 := by have := b.isLt; omega
  calc (zextByte b * 5).toNat = (zextByte b).toNat * 5 % 2 ^ 16 := BitVec.toNat_mul ..
    _ = b.toNat * 5 % 2 ^ 16 := by rw [zextByte_toNat]
    _ = b.toNat * 5 := Nat.mod_eq_of_lt hfit

/-- Settles O38: each of the two is one index write, of a value that fits 16 bits. -/
theorem indexLoads : Obligations.IndexLoads := fun nnn x s hnnn =>
  ⟨⟨_, exec_ldI nnn s, zextAddr_toNat hnnn, setI_eq_set_I ..⟩,
    ⟨_, exec_ldF x s, zextByte_mul_five_toNat (s.reg x), setI_eq_set_I ..⟩⟩

end Sys2Proof

/-! The outputs that are read off the state: the sound output and the display output (R31, R216, R217). -/

namespace Sys2Proof

open Sys2Proof.Machine

theorem soundActive_iff (s : State) : soundActive s = true ↔ 0 < s.ST.toNat := decide_eq_true_iff

@[simp] theorem displayOutput_length (s : State) : (displayOutput s).length = 2048 := by
  rw [displayOutput, List.length_map, List.length_range]

/-- The index of a cell in the display output determines its column and its row (R31). -/
theorem displayOutput_getElem? (s : State) {i : Nat} (h : i < 2048) :
    (displayOutput s)[i]? = some (s.cell (i % 64) (i / 64)) := by
  rw [displayOutput, List.getElem?_map, List.getElem?_range h, Option.map_some]

/-- Settles O58: the index of column `px` and row `py` lies below 2048, and its quotient and remainder by 64 are the row
and the column. -/
theorem outputsShowTheState : Obligations.OutputsShowTheState := by
  refine fun s => ⟨soundActive_iff s, displayOutput_length s, fun px py hpx hpy => ?_⟩
  have hindex : px + py * 64 < 2048 := by omega
  have hcol : (px + py * 64) % 64 = px := by omega
  have hrow : (px + py * 64) / 64 = py := by omega
  rw [displayOutput_getElem? s hindex, hcol, hrow]

end Sys2Proof

/-! Decoding and encoding: the two round trips, and the row of R74's map that a word selects (R70 to R81). -/

namespace Sys2Proof

open Sys2Proof.Machine

/-! ## Decoding an encoded instruction -/

@[simp] theorem fieldT_wordNNN {t nnn : Nat} (ht : t < 16) (h : nnn < 4096) : fieldT (wordNNN t nnn) = t :=
  (wordNNN_fields ht h).1

@[simp] theorem fieldNNN_wordNNN {t nnn : Nat} (ht : t < 16) (h : nnn < 4096) : fieldNNN (wordNNN t nnn) = nnn :=
  (wordNNN_fields ht h).2

@[simp] theorem fieldT_wordXKK {t : Nat} (ht : t < 16) (x : Reg) (kk : Byte) : fieldT (wordXKK t x kk) = t :=
  have ⟨hT, _, _⟩ := wordXKK_fields x kk ht; hT

@[simp] theorem fieldX_wordXKK {t : Nat} (ht : t < 16) (x : Reg) (kk : Byte) : fieldX (wordXKK t x kk) = x :=
  have ⟨_, hX, _⟩ := wordXKK_fields x kk ht; hX

@[simp] theorem fieldKK_wordXKK {t : Nat} (ht : t < 16) (x : Reg) (kk : Byte) : fieldKK (wordXKK t x kk) = kk :=
  have ⟨_, _, hKK⟩ := wordXKK_fields x kk ht; hKK

@[simp] theorem fieldT_wordXYN {t n : Nat} (ht : t < 16) (hn : n < 16) (x y : Reg) : fieldT (wordXYN t x y n) = t :=
  have ⟨hT, _, _, _⟩ := wordXYN_fields x y n ht hn; hT

@[simp] theorem fieldX_wordXYN {t n : Nat} (ht : t < 16) (hn : n < 16) (x y : Reg) : fieldX (wordXYN t x y n) = x :=
  have ⟨_, hX, _, _⟩ := wordXYN_fields x y n ht hn; hX

@[simp] theorem fieldY_wordXYN {t n : Nat} (ht : t < 16) (hn : n < 16) (x y : Reg) : fieldY (wordXYN t x y n) = y :=
  have ⟨_, _, hY, _⟩ := wordXYN_fields x y n ht hn; hY

@[simp] theorem fieldN_wordXYN {t n : Nat} (ht : t < 16) (hn : n < 16) (x y : Reg) : fieldN (wordXYN t x y n) = n :=
  have ⟨_, _, _, hN⟩ := wordXYN_fields x y n ht hn; hN

theorem decode_of_group5 {op : Word} (h : fieldT op = 5) : decode op = decodeGroup5 op := by
  simp [decode, h]

theorem decode_of_group9 {op : Word} (h : fieldT op = 9) : decode op = decodeGroup9 op := by
  simp [decode, h]

/-- Settles O1, by the shape of the encoded word: the fields of the word are the operands of the instruction, and its
group and sub-selector those of the instruction's row. -/
theorem decodeOfEncodeIsTheInstruction : Obligations.DecodeOfEncodeIsTheInstruction := by
  intro i hwf
  cases i with
  | cls | ret => decide
  | jp nnn | call nnn | ldI nnn | jpV0 nnn =>
    have hnnn : nnn < 4096 := of_decide_eq_true hwf
    simp [encode, decode, hnnn]
  | seImm x kk | sneImm x kk | ldImm x kk | addImm x kk | rnd x kk => simp [encode, decode]
  | seReg x y => simp [encode, decode_of_group5, decodeGroup5]
  | sneReg x y => simp [encode, decode_of_group9, decodeGroup9]
  | ldReg x y | orReg x y | andReg x y | xorReg x y | addReg x y | sub x y | shr x y | subn x y | shl x y =>
    simp [encode, decode_of_group8, decodeGroup8]
  | drw x y n =>
    have hn : n < 16 := of_decide_eq_true hwf
    simp [encode, decode, hn]
  | skp x | sknp x => simp [encode, decode_of_groupE, decodeGroupE]
  | ldVxDt x | ldVxK x | ldDtVx x | ldStVx x | addI x | ldF x | ldB x | ldStore x | ldLoad x =>
    simp [encode, decode_of_groupF, decodeGroupF]

/-! ## Encoding what a word decodes to -/

theorem fieldNNN_lt (op : Word) : fieldNNN op < 4096 := Nat.mod_lt _ (by decide)

theorem fieldN_lt (op : Word) : fieldN op < 16 := Nat.mod_lt _ (by decide)

theorem wordNNN_of_fields {op : Word} {t : Nat} (ht : fieldT op = t) : wordNNN t (fieldNNN op) = op := by
  apply BitVec.eq_of_toNat_eq
  subst ht
  simp only [wordNNN, fieldT, fieldNNN, BitVec.toNat_ofNat]
  omega

theorem wordXKK_of_fields {op : Word} {t : Nat} {kk : Byte} (ht : fieldT op = t) (hk : fieldKK op = kk) :
    wordXKK t (fieldX op) kk = op := by
  apply BitVec.eq_of_toNat_eq
  subst ht hk
  simp only [wordXKK, fieldT, fieldX, fieldKK, BitVec.toNat_ofNat, Fin.ofNat]
  omega

theorem wordXYN_of_fields {op : Word} {t n : Nat} (ht : fieldT op = t) (hn : fieldN op = n) :
    wordXYN t (fieldX op) (fieldY op) n = op := by
  apply BitVec.eq_of_toNat_eq
  subst ht hn
  simp only [wordXYN, fieldT, fieldX, fieldY, fieldN, BitVec.toNat_ofNat, Fin.ofNat]
  omega

/-- `i` is well-formed and stands for the word `op`. -/
def StandsFor (i : Instr) (op : Word) : Prop := WellFormed i ∧ encode i = op

theorem decodeGroup0_standsFor {op : Word} {i : Instr} (h : decodeGroup0 op = .ok i) : StandsFor i op := by
  unfold decodeGroup0 at h
  split_ifs at h with hcls hret <;> cases h
  · exact ⟨rfl, hcls.symm⟩
  · exact ⟨rfl, hret.symm⟩

theorem decodeGroup5_standsFor {op : Word} {i : Instr} (ht : fieldT op = 5) (h : decodeGroup5 op = .ok i) :
    StandsFor i op := by
  unfold decodeGroup5 at h
  split_ifs at h with hn
  cases h
  exact ⟨rfl, wordXYN_of_fields ht hn⟩

theorem decodeGroup8_standsFor {op : Word} {i : Instr} (ht : fieldT op = 8) (h : decodeGroup8 op = .ok i) :
    StandsFor i op := by
  unfold decodeGroup8 at h
  split at h <;> cases h <;> exact ⟨rfl, wordXYN_of_fields ht ‹_›⟩

theorem decodeGroup9_standsFor {op : Word} {i : Instr} (ht : fieldT op = 9) (h : decodeGroup9 op = .ok i) :
    StandsFor i op := by
  unfold decodeGroup9 at h
  split_ifs at h with hn
  cases h
  exact ⟨rfl, wordXYN_of_fields ht hn⟩

theorem decodeGroupE_standsFor {op : Word} {i : Instr} (ht : fieldT op = 0xE) (h : decodeGroupE op = .ok i) :
    StandsFor i op := by
  unfold decodeGroupE at h
  split_ifs at h <;> cases h <;> exact ⟨rfl, wordXKK_of_fields ht ‹_›⟩

theorem decodeGroupF_standsFor {op : Word} {i : Instr} (ht : fieldT op = 0xF) (h : decodeGroupF op = .ok i) :
    StandsFor i op := by
  unfold decodeGroupF at h
  split_ifs at h <;> cases h <;> exact ⟨rfl, wordXKK_of_fields ht ‹_›⟩

/-- A decoded instruction stands for its word, group by group (R74). -/
theorem standsFor_of_decode {op : Word} {i : Instr} (h : decode op = .ok i) : StandsFor i op := by
  have hlt := fieldT_lt op
  unfold decode at h
  split at h
  case h_1 => exact decodeGroup0_standsFor h
  case h_6 ht => exact decodeGroup5_standsFor ht h
  case h_9 ht => exact decodeGroup8_standsFor ht h
  case h_10 ht => exact decodeGroup9_standsFor ht h
  case h_15 ht => exact decodeGroupE_standsFor ht h
  case h_16 =>
    have ht : fieldT op = 0xF := by grind
    exact decodeGroupF_standsFor ht h
  case h_2 ht | h_3 ht | h_11 ht | h_12 ht => cases h; exact ⟨decide_eq_true (fieldNNN_lt op), wordNNN_of_fields ht⟩
  case h_4 ht | h_5 ht | h_7 ht | h_8 ht | h_13 ht => cases h; exact ⟨rfl, wordXKK_of_fields ht rfl⟩
  case h_14 ht => cases h; exact ⟨decide_eq_true (fieldN_lt op), wordXYN_of_fields ht rfl⟩

/-- Settles O2: a decoded instruction stands for its word, which says both. -/
theorem encodeOfDecodeIsTheWord : Obligations.EncodeOfDecodeIsTheWord := fun _ _ h => standsFor_of_decode h

theorem wellFormed_of_decode {op : Word} {i : Instr} (h : decode op = .ok i) : WellFormed i := (standsFor_of_decode h).1

theorem encode_of_decode {op : Word} {i : Instr} (h : decode op = .ok i) : encode i = op := (standsFor_of_decode h).2

/-! ## The row a word selects -/

/-- A well-formed instruction's word is selected by the instruction's row. -/
theorem row_selects_encode : ∀ i : Instr, Laws.RowMatch.Statement i
  | .cls => Laws.RowMatch.cls
  | .ret => Laws.RowMatch.ret
  | .jp nnn => Laws.RowMatch.jp nnn
  | .call nnn => Laws.RowMatch.call nnn
  | .seImm x kk => Laws.RowMatch.seImm x kk
  | .sneImm x kk => Laws.RowMatch.sneImm x kk
  | .seReg x y => Laws.RowMatch.seReg x y
  | .ldImm x kk => Laws.RowMatch.ldImm x kk
  | .addImm x kk => Laws.RowMatch.addImm x kk
  | .ldReg x y => Laws.RowMatch.ldReg x y
  | .orReg x y => Laws.RowMatch.orReg x y
  | .andReg x y => Laws.RowMatch.andReg x y
  | .xorReg x y => Laws.RowMatch.xorReg x y
  | .addReg x y => Laws.RowMatch.addReg x y
  | .sub x y => Laws.RowMatch.sub x y
  | .shr x y => Laws.RowMatch.shr x y
  | .subn x y => Laws.RowMatch.subn x y
  | .shl x y => Laws.RowMatch.shl x y
  | .sneReg x y => Laws.RowMatch.sneReg x y
  | .ldI nnn => Laws.RowMatch.ldI nnn
  | .jpV0 nnn => Laws.RowMatch.jpV0 nnn
  | .rnd x kk => Laws.RowMatch.rnd x kk
  | .drw x y n => Laws.RowMatch.drw x y n
  | .skp x => Laws.RowMatch.skp x
  | .sknp x => Laws.RowMatch.sknp x
  | .ldVxDt x => Laws.RowMatch.ldVxDt x
  | .ldVxK x => Laws.RowMatch.ldVxK x
  | .ldDtVx x => Laws.RowMatch.ldDtVx x
  | .ldStVx x => Laws.RowMatch.ldStVx x
  | .addI x => Laws.RowMatch.addI x
  | .ldF x => Laws.RowMatch.ldF x
  | .ldB x => Laws.RowMatch.ldB x
  | .ldStore x => Laws.RowMatch.ldStore x
  | .ldLoad x => Laws.RowMatch.ldLoad x

theorem fields_of_selects_F000 {op bits : Word} (h : Row.selects ⟨0xF000, bits⟩ op = true) :
    fieldT op = bits.toNat / 4096 := by
  have hT := fieldT_lt op
  rw [Row.selects, beq_iff_eq, and_F000] at h
  subst h
  rw [BitVec.toNat_ofNat]
  omega

theorem fields_of_selects_F00F {op bits : Word} (h : Row.selects ⟨0xF00F, bits⟩ op = true) :
    fieldT op = bits.toNat / 4096 ∧ fieldN op = bits.toNat % 16 := by
  have hT := fieldT_lt op
  have hN := fieldN_lt op
  rw [Row.selects, beq_iff_eq, and_F00F] at h
  subst h
  rw [BitVec.toNat_ofNat]
  omega

theorem fields_of_selects_F0FF {op bits : Word} (h : Row.selects ⟨0xF0FF, bits⟩ op = true) :
    fieldT op = bits.toNat / 4096 ∧ fieldKK op = BitVec.ofNat 8 bits.toNat := by
  have hT := fieldT_lt op
  have hKK := (fieldKK op).isLt
  rw [Row.selects, beq_iff_eq, and_F0FF] at h
  subst h
  refine ⟨?_, BitVec.eq_of_toNat_eq ?_⟩
  · rw [BitVec.toNat_ofNat]
    omega
  · rw [BitVec.toNat_ofNat, BitVec.toNat_ofNat]
    omega

theorem eq_of_selects_FFFF {op bits : Word} (h : Row.selects ⟨0xFFFF, bits⟩ op = true) : op = bits := by
  have hall : op &&& 0xFFFF = op := BitVec.and_allOnes
  rwa [Row.selects, beq_iff_eq, hall] at h

/-- A word that a row of the map selects decodes to an instruction of that row: the mask leaves the group, and the low
nibble or the low byte where the row has them as sub-selector. -/
theorem decode_of_row_selects {op : Word} (i : Instr) (h : i.row.selects op = true) :
    ∃ j, decode op = .ok j ∧ j.row = i.row := by
  cases i with
  | cls | ret =>
    rw [eq_of_selects_FFFF h]
    exact ⟨_, rfl, rfl⟩
  | jp _ | call _ | ldI _ | jpV0 _ | seImm _ _ | sneImm _ _ | ldImm _ _ | addImm _ _ | rnd _ _ | drw _ _ _ =>
    have hT := fields_of_selects_F000 h
    simp [decode, hT, Instr.row]
  | seReg _ _ =>
    obtain ⟨hT, hN⟩ := fields_of_selects_F00F h
    simp [decode_of_group5 hT, decodeGroup5, hN, Instr.row]
  | sneReg _ _ =>
    obtain ⟨hT, hN⟩ := fields_of_selects_F00F h
    simp [decode_of_group9 hT, decodeGroup9, hN, Instr.row]
  | ldReg _ _ | orReg _ _ | andReg _ _ | xorReg _ _ | addReg _ _ | sub _ _ | shr _ _ | subn _ _ | shl _ _ =>
    obtain ⟨hT, hN⟩ := fields_of_selects_F00F h
    simp [decode_of_group8 hT, decodeGroup8, hN, Instr.row]
  | skp _ | sknp _ =>
    obtain ⟨hT, hKK⟩ := fields_of_selects_F0FF h
    simp [decode_of_groupE hT, decodeGroupE, hKK, Instr.row]
  | ldVxDt _ | ldVxK _ | ldDtVx _ | ldStVx _ | addI _ | ldF _ | ldB _ | ldStore _ | ldLoad _ =>
    obtain ⟨hT, hKK⟩ := fields_of_selects_F0FF h
    simp [decode_of_groupF hT, decodeGroupF, hKK, Instr.row]

/-- Settles O3: the row of a decoded instruction selects the word the instruction encodes to, which is the one decoded;
and every row of the map is the row of an instruction. -/
theorem wordDecodesToTheRowThatSelectsIt : Obligations.WordDecodesToTheRowThatSelectsIt := by
  refine ⟨fun _ i h => ?_, fun _ r hr hsel => ?_⟩
  · have hsel := row_selects_encode i (wellFormed_of_decode h)
    rwa [encode_of_decode h] at hsel
  · obtain ⟨i, -, rfl⟩ := List.mem_map.1 hr
    exact decode_of_row_selects i hsel

/-- Settles O6: the two groups' decoders test the low nibble and nothing else. -/
theorem groupsFiveAndNineNeedAZeroLowNibble : Obligations.GroupsFiveAndNineNeedAZeroLowNibble := fun _ =>
  ⟨fun h => decode_of_group5 h, fun h => decode_of_group9 h⟩

/-- Settles O7, by evaluating the decoder on the seven words. -/
theorem sampleWordsDecode : Obligations.SampleWordsDecode := by
  unfold Obligations.SampleWordsDecode
  decide

end Sys2Proof

/-! What an instruction may write, said once as a list of elements of the state, and the frames that follow (R20). -/

namespace Sys2Proof.Machine

/-- The elements of the state an instruction may write. The keys are the host's, and the record is written by raising. -/
inductive Field where
  | V | I | pc | sp | stack | DT | ST | mem | disp | wait | draws
  deriving DecidableEq

/-- The elements the effect of an instruction may write (the rules of each instruction, R100 to R176). -/
def mayWrite : Instr → List Field
  | .cls => [.disp]
  | .ret => [.pc, .sp]
  | .call _ => [.pc, .sp, .stack]
  | .jp _ | .jpV0 _ | .seImm _ _ | .sneImm _ _ | .seReg _ _ | .sneReg _ _ | .skp _ | .sknp _ => [.pc]
  | .ldImm _ _ | .addImm _ _ | .ldReg _ _ | .orReg _ _ | .andReg _ _ | .xorReg _ _ => [.V]
  | .addReg _ _ | .sub _ _ | .shr _ _ | .subn _ _ | .shl _ _ | .ldVxDt _ | .ldLoad _ => [.V]
  | .rnd _ _ => [.V, .draws]
  | .drw _ _ _ => [.V, .disp]
  | .ldVxK _ => [.V, .pc, .wait]
  | .ldI _ | .addI _ | .ldF _ => [.I]
  | .ldDtVx _ => [.DT]
  | .ldStVx _ => [.ST]
  | .ldB _ | .ldStore _ => [.mem]

/-- `t` is `s` with no element changed but those listed. -/
def ChangesOnly (fs : List Field) (s t : State) : Prop :=
  t = { s with
    V := if .V ∈ fs then t.V else s.V
    I := if .I ∈ fs then t.I else s.I
    pc := if .pc ∈ fs then t.pc else s.pc
    sp := if .sp ∈ fs then t.sp else s.sp
    stack := if .stack ∈ fs then t.stack else s.stack
    DT := if .DT ∈ fs then t.DT else s.DT
    ST := if .ST ∈ fs then t.ST else s.ST
    mem := if .mem ∈ fs then t.mem else s.mem
    disp := if .disp ∈ fs then t.disp else s.disp
    wait := if .wait ∈ fs then t.wait else s.wait
    draws := if .draws ∈ fs then t.draws else s.draws }

namespace ChangesOnly

variable {fs : List Field} {s t : State}

theorem V_eq (h : ChangesOnly fs s t) (hf : .V ∉ fs) : t.V = s.V := (congrArg State.V h).trans (if_neg hf)
theorem I_eq (h : ChangesOnly fs s t) (hf : .I ∉ fs) : t.I = s.I := (congrArg State.I h).trans (if_neg hf)
theorem pc_eq (h : ChangesOnly fs s t) (hf : .pc ∉ fs) : t.pc = s.pc := (congrArg State.pc h).trans (if_neg hf)
theorem sp_eq (h : ChangesOnly fs s t) (hf : .sp ∉ fs) : t.sp = s.sp := (congrArg State.sp h).trans (if_neg hf)
theorem stack_eq (h : ChangesOnly fs s t) (hf : .stack ∉ fs) : t.stack = s.stack :=
  (congrArg State.stack h).trans (if_neg hf)
theorem DT_eq (h : ChangesOnly fs s t) (hf : .DT ∉ fs) : t.DT = s.DT := (congrArg State.DT h).trans (if_neg hf)
theorem ST_eq (h : ChangesOnly fs s t) (hf : .ST ∉ fs) : t.ST = s.ST := (congrArg State.ST h).trans (if_neg hf)
theorem mem_eq (h : ChangesOnly fs s t) (hf : .mem ∉ fs) : t.mem = s.mem := (congrArg State.mem h).trans (if_neg hf)
theorem disp_eq (h : ChangesOnly fs s t) (hf : .disp ∉ fs) : t.disp = s.disp :=
  (congrArg State.disp h).trans (if_neg hf)
theorem wait_eq (h : ChangesOnly fs s t) (hf : .wait ∉ fs) : t.wait = s.wait :=
  (congrArg State.wait h).trans (if_neg hf)
theorem draws_eq (h : ChangesOnly fs s t) (hf : .draws ∉ fs) : t.draws = s.draws :=
  (congrArg State.draws h).trans (if_neg hf)
theorem key_eq (h : ChangesOnly fs s t) : t.key = s.key := (congrArg State.key h).trans rfl

end ChangesOnly

/-- The effect of an instruction writes what the list allows and nothing else. -/
theorem effect_changesOnly (i : Instr) (s : State) : ChangesOnly (mayWrite i) s (effect i s) := by
  cases i with
  | ret =>
    simp only [effect]
    split <;> rfl
  | call nnn =>
    simp only [effect]
    split <;> rfl
  | seImm x kk | sneImm x kk | seReg x y | sneReg x y | skp x | sknp x =>
    simp only [effect, skipIf_eq]
    rfl
  | drw x y n =>
    obtain ⟨v, d, h⟩ := drawSprite_rest ((s.reg x).toNat % 64) ((s.reg y).toNat % 32) (rowsDrawn s y n) (s.setReg VF 0)
    simp only [effect, h]
    rfl
  | ldVxK x =>
    simp only [effect]
    split
    · unfold awaitRelease
      split <;> rfl
    · rfl
    · rfl
  | ldStore x =>
    obtain ⟨m, h⟩ := storeReg_rest (x.val + 1) s
    simp only [effect, h]
    rfl
  | ldLoad x =>
    obtain ⟨v, h⟩ := loadReg_rest (x.val + 1) s
    simp only [effect, h]
    rfl
  | _ => rfl

/-- What raising leaves alone and the effect leaves alone, executing leaves alone. -/
theorem exec_keeps {i : Instr} {s t : State} {α : Sort*} (f : State → α) (h : exec i s = .next t)
    (hraise : ∀ a op k n, f (raiseAt a op k n s) = f s) (heffect : f (effect i s) = f s) : f t = f s := by
  rcases exec_cases h with ⟨k, n, -, rfl⟩ | ⟨-, rfl⟩
  · exact hraise ..
  · exact heffect

/-! ## General registers -/

theorem ChangesOnly.reg_eq {fs : List Field} {s t : State} (h : ChangesOnly fs s t) (hf : .V ∉ fs) (r : Reg) :
    t.reg r = s.reg r := congrArg (·[r.val]) (h.V_eq hf)

/-- Every register is as before the release, or is the one Fx0A names. -/
theorem awaitRelease_reg {x r : Reg} (h : r ≠ x) (k : Fin 16) (s : State) : (awaitRelease x k s).reg r = s.reg r := by
  unfold awaitRelease
  split
  · rfl
  · simp [h]

/-- The sprite a DRW draws where it does not raise: the picture of its rows, clipped at the right (R101). -/
def drwPicture (x y : Reg) (n : Nat) (s : State) (px py : Nat) : Bool :=
  decide (px < 64) && SpriteAt s ((s.reg x).toNat % 64) ((s.reg y).toNat % 32) (rowsDrawn s y n) px py

theorem rowsDrawn_le (s : State) (y : Reg) (n : Nat) : rowsDrawn s y n ≤ n := Nat.min_le_left ..

/-- The drawn rows lie on the screen. -/
theorem origin_add_rowsDrawn_le (s : State) (y : Reg) (n : Nat) : (s.reg y).toNat % 32 + rowsDrawn s y n ≤ 32 := by
  unfold rowsDrawn
  omega

/-- DRW clears VF and draws its picture. -/
theorem effect_drw_drawn (x y : Reg) (n : Nat) (s : State) :
    Drawn (s.setReg VF 0) (drwPicture x y n s) (effect (.drw x y n) s) :=
  drawSprite_drawn (s.setReg VF 0) (origin_add_rowsDrawn_le s y n)

/-- The effect leaves every register that is no destination and no flag written. -/
theorem effect_reg {i : Instr} {r : Reg} (s : State) (h : r ∉ writtenRegs i) : (effect i s).reg r = s.reg r := by
  cases i with
  | ldImm _ _ | addImm _ _ | ldReg _ _ | orReg _ _ | andReg _ _ | xorReg _ _ | rnd _ _ | ldVxDt _ =>
    simp only [writtenRegs, List.mem_singleton] at h
    simp [effect, h]
  | addReg _ _ | sub _ _ | shr _ _ | subn _ _ | shl _ _ =>
    simp only [writtenRegs, List.mem_cons, List.not_mem_nil, or_false, not_or] at h
    obtain ⟨hx, hVF⟩ := h
    simp [effect, hx, hVF]
  | drw x y n =>
    have hVF : r ≠ VF := by simpa [writtenRegs] using h
    rw [(effect_drw_drawn x y n s).regs r hVF, setReg_reg, if_neg hVF]
  | ldLoad x =>
    have hx : ¬ r.val < x.val + 1 := by simpa [writtenRegs, Nat.lt_succ_iff] using h
    rw [effect, (forUpTo_loadReg s (by omega)).2 r, if_neg hx]
  | ldVxK x =>
    have hx : r ≠ x := by simpa [writtenRegs] using h
    simp only [effect]
    split
    · exact awaitRelease_reg hx _ s
    · rfl
    · rfl
  | _ => exact (effect_changesOnly _ s).reg_eq (by simp [mayWrite]) r

/-! ## Memory -/

theorem inside_of_noCause {base len : Nat} (h : ∀ n, ¬ LowestOutside base len n) : len = 0 ∨ base + len ≤ 4096 := by
  cases ho : firstOutside base len with
  | none => exact firstOutside_eq_none.1 ho
  | some n => exact absurd (firstOutside_eq_some.1 ho) (h n)

/-- An instruction that stores nothing leaves memory. -/
theorem effect_mem_eq {i : Instr} (s : State) (h : storedLen i = 0) : (effect i s).mem = s.mem := by
  refine (effect_changesOnly i s).mem_eq ?_
  cases i <;> simp [mayWrite, storedLen] at h ⊢

@[simp] theorem bcdDigits_length (v : Byte) : (bcdDigits v).length = 3 := rfl

/-- Where no cause to raise holds, the effect keeps memory canonical and stores only in the instruction's range. -/
theorem effect_mem {i : Instr} {s : State} (hw : MemoryCanonical s) (hc : ∀ k n, ¬ Cause s k n i) :
    MemoryCanonical (effect i s) ∧
      ∀ a, a < s.I.toNat ∨ s.I.toNat + storedLen i ≤ a → (effect i s).mem.read a = s.mem.read a := by
  by_cases hstores : storedLen i = 0
  · rw [MemoryCanonical, effect_mem_eq s hstores]
    exact ⟨hw, fun _ _ => rfl⟩
  cases i with
  | ldB x =>
    have hlen : s.I.toNat + (bcdDigits (s.reg x)).length ≤ 4096 := by
      have := inside_of_noCause fun n hn => hc _ n ⟨rfl, hn⟩
      rw [bcdDigits_length]
      omega
    refine ⟨Memory.wf_writeMany hw hlen, fun a ha => ?_⟩
    rw [effect, Memory.read_writeMany hw hlen, if_neg (by rw [bcdDigits_length]; simp only [storedLen] at ha; omega)]
  | ldStore x =>
    have hlen : s.I.toNat + (x.val + 1) ≤ 4096 := by
      have := inside_of_noCause fun n hn => hc _ n ⟨rfl, hn⟩
      omega
    obtain ⟨-, hcanon, hread⟩ := forUpTo_storeReg hw (show x.val + 1 ≤ 16 by omega) hlen
    refine ⟨hcanon, fun a ha => ?_⟩
    rw [effect, hread, dif_neg (by simp only [storedLen] at ha; omega)]
  | _ => exact absurd rfl hstores

/-! ## Causes -/

theorem LowestOutside.unique {base len m n : Nat} (hm : LowestOutside base len m) (hn : LowestOutside base len n) :
    m = n :=
  Option.some.inj ((firstOutside_eq_some.2 hm).symm.trans (firstOutside_eq_some.2 hn))

/-- In one state an instruction has at most one cause to raise (R201). -/
theorem Cause.unique {s : State} {k k' : FaultKind} {n n' : Nat} {i : Instr} (h : Cause s k n i)
    (h' : Cause s k' n' i) : k = k' ∧ n = n' := by
  cases i with
  | call _ | ret | addI _ | skp _ | sknp _ =>
    obtain ⟨hk, -, hn⟩ := h
    obtain ⟨hk', -, hn'⟩ := h'
    exact ⟨hk.trans hk'.symm, hn.trans hn'.symm⟩
  | drw _ _ _ | ldB _ | ldStore _ | ldLoad _ =>
    obtain ⟨hk, hn⟩ := h
    obtain ⟨hk', hn'⟩ := h'
    exact ⟨hk.trans hk'.symm, hn.unique hn'⟩
  | _ => exact h.elim

/-- No executing instruction raises the fault of the fetch (R202). -/
theorem Cause.kind_ne_fetchBounds {s : State} {k : FaultKind} {n : Nat} {i : Instr} (h : Cause s k n i) :
    k ≠ .fetchBounds := by
  cases i with
  | call _ | ret | addI _ | skp _ | sknp _ | drw _ _ _ | ldB _ | ldStore _ | ldLoad _ =>
    obtain ⟨rfl, -⟩ := h
    decide
  | _ => exact h.elim

/-- Where its cause holds, an instruction raises it. -/
theorem exec_of_cause {s : State} {k : FaultKind} {n : Nat} {i : Instr} (h : Cause s k n i) :
    exec i s = .next (raiseAt (s.pc - 2) (some (encode i)) k n s) := by
  rcases exec_total i s with ⟨k', n', hc, he⟩ | ⟨hc, -⟩
  · obtain ⟨rfl, rfl⟩ := h.unique hc
    exact he
  · exact absurd h (hc k n)

/-- Where no cause holds, an instruction has its effect. -/
theorem exec_of_noCause {s : State} {i : Instr} (h : ∀ k n, ¬ Cause s k n i) : exec i s = .next (effect i s) := by
  rcases exec_total i s with ⟨k, n, hc, -⟩ | ⟨-, he⟩
  · exact absurd hc (h k n)
  · exact he

/-- Causes are read off the registers, the index register and the depth of the stack alone. -/
theorem cause_congr {s s' : State} (hV : s'.V = s.V) (hI : s'.I = s.I) (hsp : s'.sp = s.sp) (k : FaultKind) (n : Nat)
    (i : Instr) : Cause s' k n i ↔ Cause s k n i := by
  have hreg : ∀ r, s'.reg r = s.reg r := fun r => congrArg (·[r.val]) hV
  cases i with
  | call _ | ret | addI _ | skp _ | sknp _ | drw _ _ _ | ldB _ | ldStore _ | ldLoad _ =>
    simp only [Cause, rowsDrawn, hreg, hI, hsp]
  | _ => exact Iff.rfl

/-- A record after an execution that began without one is the record of a cause that held. -/
theorem cause_of_exec_fault {i : Instr} {s t : State} {r : FaultRecord} (hf : s.fault = none) (h : exec i s = .next t)
    (hr : t.fault = some r) :
    Cause s r.kind r.info i ∧ r = ⟨r.kind, s.pc - 2, some (encode i), r.info⟩ ∧
      t = raiseAt (s.pc - 2) (some (encode i)) r.kind r.info s := by
  rcases exec_cases h with ⟨k, n, hc, rfl⟩ | ⟨-, rfl⟩
  · cases hr
    exact ⟨hc, rfl, rfl⟩
  · rw [effect_fault, hf] at hr
    cases hr

end Sys2Proof.Machine

/-! What an executing instruction raises, and what it leaves unchanged (R20 to R34, R57, R201). -/

namespace Sys2Proof

open Sys2Proof.Machine Host.Outcome

/-! ## Faults -/

/-- Settles O12: whatever the fetch gives, the step is one of four next states. -/
theorem everyStepAnswersANextState : Obligations.EveryStepAnswersANextState := by
  intro s
  by_cases hf : s.fault = none
  · cases hfe : fetch s with
    | none => exact ⟨_, step_unfetched hf hfe⟩
    | some op =>
      cases hd : decode op with
      | error e => exact ⟨_, step_unknown hf hfe hd⟩
      | ok i =>
        rw [step_decoded hf hfe hd]
        rcases exec_total i s.advance with ⟨k, n, -, he⟩ | ⟨-, he⟩
        · exact ⟨_, he⟩
        · exact ⟨_, he⟩
  · exact ⟨s, step_faulted hf⟩

/-- Settles O14: a record left tells of a cause that held, and a cause that holds is raised. -/
theorem instructionsRaiseExactlyForTheirCauses : Obligations.InstructionsRaiseExactlyForTheirCauses := by
  intro i s t hf h r
  constructor
  · intro hr
    obtain ⟨hc, hrec, -⟩ := cause_of_exec_fault hf h hr
    exact ⟨congrArg FaultRecord.pc hrec, congrArg FaultRecord.opcode hrec, hc⟩
  · rintro ⟨hpc, hop, hc⟩
    have ht : t = raiseAt (s.pc - 2) (some (encode i)) r.kind r.info s :=
      Host.Outcome.next.inj (h.symm.trans (exec_of_cause hc))
    rw [ht, raiseAt_fault, ← hpc, ← hop]

/-! ## Frames -/

/-- Settles O16: neither raising nor the effect writes another register. -/
theorem onlyDestinationRegistersChange : Obligations.OnlyDestinationRegistersChange := fun _ s _ r h hr =>
  exec_keeps (·.reg r) h (fun _ _ _ _ => rfl) (effect_reg s hr)

/-- Settles O17: raising stores nothing, and without a cause to raise the whole range lies in memory. -/
theorem onlyStoredBytesChange : Obligations.OnlyStoredBytesChange := by
  intro i s t a hw h ha
  rcases exec_cases h with ⟨k, n, -, rfl⟩ | ⟨hc, rfl⟩
  · rfl
  · exact (effect_mem hw hc).2 a ha

/-- A cell is read off the display. -/
theorem cell_congr {s t : State} (h : t.disp = s.disp) (px py : Nat) : t.cell px py = s.cell px py := by
  simp only [State.cell, h]

/-- Settles O18: but for CLS and DRW no effect writes the display, and DRW inverts the cells of its picture alone. -/
theorem onlyDisplayInstructionsChangeCells : Obligations.OnlyDisplayInstructionsChangeCells := by
  intro i s t px py h hcls hne
  have heffect : (effect i s).cell px py ≠ s.cell px py := fun heq =>
    hne (exec_keeps (·.cell px py) h (fun _ _ _ _ => rfl) heq)
  cases i with
  | cls => exact absurd rfl hcls
  | drw x y n =>
    refine ⟨x, y, n, rfl, ?_⟩
    have hcell := (effect_drw_drawn x y n s).cells px py
    cases hp : drwPicture x y n s px py with
    | false => exact absurd (by simpa [hp] using hcell) heffect
    | true => exact (Bool.and_eq_true_iff.1 hp).2
  | _ => exact absurd (cell_congr ((effect_changesOnly _ s).disp_eq (by simp [mayWrite])) px py) heffect

theorem stack_mem_mayWrite {i : Instr} : .stack ∈ mayWrite i ↔ ∃ nnn, i = .call nnn := by
  cases i <;> simp [mayWrite]

theorem sp_mem_mayWrite {i : Instr} : .sp ∈ mayWrite i ↔ (∃ nnn, i = .call nnn) ∨ i = .ret := by
  cases i <;> simp [mayWrite]

/-- A push writes the entry at sp, and no effect another one. -/
theorem effect_stack_entry (i : Instr) (s : State) (k : Fin 16) (hk : k.val ≠ s.sp.val) :
    (effect i s).stack[k.val] = s.stack[k.val] := by
  by_cases hcall : ∃ nnn, i = .call nnn
  · obtain ⟨nnn, rfl⟩ := hcall
    simp only [effect]
    split
    · exact Vector.getElem_set_ne ‹_› _ hk.symm
    · rfl
  · exact congrArg (·[k.val]) ((effect_changesOnly i s).stack_eq (mt stack_mem_mayWrite.1 hcall))

/-- Settles O19: CALL alone may write the entries, CALL and RET alone sp. -/
theorem onlyCallAndRetChangeTheStack : Obligations.OnlyCallAndRetChangeTheStack := by
  intro i s t h
  have hch := effect_changesOnly i s
  refine ⟨fun hcall => ⟨?_, fun hret => ?_⟩, fun k hk => ?_⟩
  · exact exec_keeps State.stack h (fun _ _ _ _ => rfl) (hch.stack_eq (by simp [stack_mem_mayWrite, hcall]))
  · exact exec_keeps State.sp h (fun _ _ _ _ => rfl) (hch.sp_eq (by simp [sp_mem_mayWrite, hcall, hret]))
  · exact exec_keeps (·.stack[k.val]) h (fun _ _ _ _ => rfl) (effect_stack_entry i s k hk)

theorem I_mem_mayWrite {i : Instr} :
    .I ∈ mayWrite i ↔ (∃ nnn, i = .ldI nnn) ∨ (∃ x, i = .addI x) ∨ ∃ x, i = .ldF x := by
  cases i <;> simp [mayWrite]

theorem DT_mem_mayWrite {i : Instr} : .DT ∈ mayWrite i ↔ ∃ x, i = .ldDtVx x := by
  cases i <;> simp [mayWrite]

theorem ST_mem_mayWrite {i : Instr} : .ST ∈ mayWrite i ↔ ∃ x, i = .ldStVx x := by
  cases i <;> simp [mayWrite]

/-- Settles O20: `mayWrite` lists I, DT and ST for their writers alone. -/
theorem indexAndTimersChangeOnlyByTheirWriters : Obligations.IndexAndTimersChangeOnlyByTheirWriters := by
  intro i s t h
  have hch := effect_changesOnly i s
  refine ⟨fun hldI haddI hldF => ?_, fun hdt => ?_, fun hst => ?_⟩
  · exact exec_keeps State.I h (fun _ _ _ _ => rfl) (hch.I_eq (by simp [I_mem_mayWrite, hldI, haddI, hldF]))
  · exact exec_keeps State.DT h (fun _ _ _ _ => rfl) (hch.DT_eq (by simp [DT_mem_mayWrite, hdt]))
  · exact exec_keeps State.ST h (fun _ _ _ _ => rfl) (hch.ST_eq (by simp [ST_mem_mayWrite, hst]))

theorem wait_mem_mayWrite {i : Instr} : .wait ∈ mayWrite i ↔ ∃ x, i = .ldVxK x := by
  cases i <;> simp [mayWrite]

theorem draws_mem_mayWrite {i : Instr} : .draws ∈ mayWrite i ↔ ∃ x kk, i = .rnd x kk := by
  cases i <;> simp [mayWrite]

/-- Settles O21: `mayWrite` lists no key at all, and the latch and the draws for Fx0A and Cxkk alone. -/
theorem keysLatchAndDrawsChangeOnlyByTheirWriters : Obligations.KeysLatchAndDrawsChangeOnlyByTheirWriters := by
  intro i s t h
  have hch := effect_changesOnly i s
  refine ⟨exec_keeps State.key h (fun _ _ _ _ => rfl) hch.key_eq, fun hwait => ?_, fun hrnd => ?_⟩
  · exact exec_keeps State.wait h (fun _ _ _ _ => rfl) (hch.wait_eq (by simp [wait_mem_mayWrite, hwait]))
  · exact exec_keeps State.draws h (fun _ _ _ _ => rfl) (hch.draws_eq (by simp [draws_mem_mayWrite, hrnd]))

theorem pc_mem_mayWrite {i : Instr} : .pc ∈ mayWrite i ↔ movesPc i = true := by
  cases i <;> simp [mayWrite, movesPc]

/-- Settles O22: without a new record the effect took place, which writes pc only where `movesPc` says; and raising
replaces a record by a record. -/
theorem onlyControlFlowMovesPc : Obligations.OnlyControlFlowMovesPc := by
  intro i s t h
  rcases exec_cases h with ⟨k, n, -, rfl⟩ | ⟨-, rfl⟩
  · exact ⟨fun _ _ ht => absurd ht (Option.some_ne_none _), fun _ => Option.some_ne_none _⟩
  · exact ⟨fun hpc _ _ => (effect_changesOnly i s).pc_eq (by simp [pc_mem_mayWrite, hpc]),
      fun hf => by rwa [effect_fault]⟩

end Sys2Proof

/-! What the keys and the sound timer reach (R29, R33), and the nibble SHR and SHL ignore (R81). -/

namespace Sys2Proof

open Sys2Proof.Machine Host.Outcome

/-- The instructions that read the keys (R33). -/
def readsKeys : Instr → Prop
  | .skp _ | .sknp _ | .ldVxK _ => True
  | _ => False

/-- The state with other keys and another sound timer. -/
def withKeysAndST (ks : Vector Bool 16) (b : Byte) (s : State) : State := { s with key := ks, ST := b }

theorem forUpTo_comm {f : State → State} {body : Nat → State → State} (h : ∀ k t, body k (f t) = f (body k t)) (n : Nat)
    (s : State) : forUpTo n body (f s) = f (forUpTo n body s) := by
  induction n with
  | zero => rfl
  | succ n ih => rw [forUpTo_succ, ih, h, forUpTo_succ]

theorem toggleCell_withKeysAndST (px py : Nat) (ks : Vector Bool 16) (b : Byte) (s : State) :
    toggleCell px py (withKeysAndST ks b s) = withKeysAndST ks b (toggleCell px py s) := by
  have hcell : (withKeysAndST ks b s).cell px py = s.cell px py := rfl
  unfold toggleCell State.setCell
  rw [hcell]
  split <;> split <;> rfl

/-- Drawing neither reads nor writes keys and sound timer. -/
theorem drawSprite_withKeysAndST (x0 y0 rows : Nat) (ks : Vector Bool 16) (b : Byte) (s : State) :
    drawSprite x0 y0 rows (withKeysAndST ks b s) = withKeysAndST ks b (drawSprite x0 y0 rows s) := by
  refine forUpTo_comm (fun r t => forUpTo_comm (fun c u => ?_) _ t) _ s
  split
  · exact toggleCell_withKeysAndST ..
  · rfl

/-- Waiting for a release neither reads nor writes the sound timer. -/
theorem awaitRelease_withST (x : Reg) (k : Fin 16) (b : Byte) (s : State) :
    awaitRelease x k (withKeysAndST s.key b s) = withKeysAndST s.key b (awaitRelease x k s) := by
  have hpressed : (withKeysAndST s.key b s).pressed k = s.pressed k := rfl
  simp only [awaitRelease, hpressed]
  split <;> rfl

/-- But for the instructions that read the keys, other keys and another sound timer give the effect with those keys and,
where the effect does not write it, that timer. -/
theorem effect_withKeysAndST (i : Instr) (s : State) (ks : Vector Bool 16) (b : Byte) (hk : readsKeys i → ks = s.key) :
    effect i (withKeysAndST ks b s) =
      withKeysAndST ks (if .ST ∈ mayWrite i then (effect i s).ST else b) (effect i s) := by
  cases i with
  | ret | call nnn =>
    have hsp : (withKeysAndST ks b s).sp = s.sp := rfl
    simp only [effect, hsp]
    split <;> rfl
  | seImm x kk | sneImm x kk | seReg x y | sneReg x y =>
    simp only [effect, skipIf_eq]
    rfl
  | skp x | sknp x =>
    obtain rfl := hk trivial
    simp only [effect, skipIf_eq]
    rfl
  | drw x y n => exact drawSprite_withKeysAndST _ _ _ ks b (s.setReg VF 0)
  | ldVxK x =>
    obtain rfl := hk trivial
    have hwait : (withKeysAndST s.key b s).wait = s.wait := rfl
    have hfirst : (withKeysAndST s.key b s).firstPressed = s.firstPressed := rfl
    simp only [effect, hwait, hfirst]
    split
    · exact awaitRelease_withST ..
    · rfl
    · rfl
  | ldStore x => exact forUpTo_comm (f := withKeysAndST ks b) (body := storeReg) (fun _ _ => rfl) _ s
  | ldLoad x => exact forUpTo_comm (f := withKeysAndST ks b) (body := loadReg) (fun _ _ => rfl) _ s
  | _ => rfl

/-- The same of executing, raising included: both executions raise or neither does. -/
theorem exec_withKeysAndST {i : Instr} {s t : State} (ks : Vector Bool 16) (b : Byte) (hk : readsKeys i → ks = s.key)
    (h : exec i s = next t) :
    exec i (withKeysAndST ks b s) = next (withKeysAndST ks (if .ST ∈ mayWrite i then t.ST else b) t) := by
  have hcause := cause_congr (s := s) (s' := withKeysAndST ks b s) rfl rfl rfl
  rcases exec_cases h with ⟨k, n, hc, rfl⟩ | ⟨hc, rfl⟩
  · have hST : .ST ∉ mayWrite i := by
      rw [ST_mem_mayWrite]
      rintro ⟨x, rfl⟩
      exact hc
    rw [exec_of_cause ((hcause k n i).2 hc), if_neg hST]
    rfl
  · rw [exec_of_noCause fun k n hc' => hc k n ((hcause k n i).1 hc'), effect_withKeysAndST i s ks b hk]

/-- Settles O23: change the keys and keep the timer, or change the timer and keep the keys. -/
theorem keysAndSoundTimerReachOnlyTheirReaders : Obligations.KeysAndSoundTimerReachOnlyTheirReaders := by
  intro i s t h
  refine ⟨fun ks hskp hsknp hldVxK => ?_, fun b hldStVx => ?_, fun x y y' => ⟨?_, ?_⟩⟩
  · have hk : readsKeys i → ks = s.key := fun hr => by
      cases i with
      | skp x => exact absurd rfl (hskp x)
      | sknp x => exact absurd rfl (hsknp x)
      | ldVxK x => exact absurd rfl (hldVxK x)
      | _ => exact hr.elim
    have hST : (if .ST ∈ mayWrite i then t.ST else s.ST) = t.ST := by
      split
      · rfl
      · next hw => exact (exec_keeps State.ST h (fun _ _ _ _ => rfl) ((effect_changesOnly i s).ST_eq hw)).symm
    have hexec := exec_withKeysAndST ks s.ST hk h
    rw [hST] at hexec
    exact hexec
  · have hST : .ST ∉ mayWrite i := by simp [ST_mem_mayWrite, hldStVx]
    have hkey : t.key = s.key := exec_keeps State.key h (fun _ _ _ _ => rfl) (effect_changesOnly i s).key_eq
    have ht : withKeysAndST s.key b t = { t with ST := b } := by
      rw [← hkey]
      rfl
    have hexec := exec_withKeysAndST s.key b (fun _ => rfl) h
    rw [if_neg hST, ht] at hexec
    exact hexec
  · rintro rfl
    exact h
  · rintro rfl
    exact h

end Sys2Proof

/-! The step: what it runs, reports and raises (R54, R80, R83, R200 to R211, R221). -/

namespace Sys2Proof

open Sys2Proof.Machine Host.Outcome

/-! ## Reports and signals -/

theorem stepReport_faulted {s : State} (hf : s.fault ≠ none) : stepReport s = none :=
  if_pos (by simpa [Option.isSome_iff_ne_none] using hf)

theorem stepReport_unfetched {s : State} (hfe : fetch s = none) : stepReport s = none := by
  simp [stepReport, hfe]

theorem stepReport_decoded {s : State} {op : Word} {i : Instr} (hfe : fetch s = some op) (hd : decode op = .ok i) :
    stepReport s = none := by
  simp [stepReport, hfe, hd]

theorem stepReport_unknown {s : State} {op : Word} {e : Reject} (hf : s.fault = none) (hfe : fetch s = some op)
    (hd : decode op = .error e) : stepReport s = some ⟨s.pc, op⟩ := by
  simp [stepReport, hf, hfe, hd]

theorem stepSignal_faulted {s : State} (hf : s.fault ≠ none) : stepSignal s = .nothing :=
  if_pos (by simpa [Option.isSome_iff_ne_none] using hf)

theorem stepSignal_of_report {s : State} {r : Report} (hf : s.fault = none) (hr : stepReport s = some r) :
    stepSignal s = .reported r := by
  simp [stepSignal, hf, hr]

theorem stepSignal_of_raise {s t : State} {r : FaultRecord} (hf : s.fault = none) (hr : stepReport s = none)
    (h : step s = next t) (ht : t.fault = some r) : stepSignal s = .raised r := by
  simp [stepSignal, hf, hr, h, ht]

/-! ## What a STEP does -/

/-- The word of two bytes is the one with their big-endian value (R55). -/
theorem eq_wordOfBytes {op : Word} {hi lo : Byte} (h : op.toNat = hi.toNat * 256 + lo.toNat) : op = wordOfBytes hi lo := by
  rw [wordOfBytes, ← h, BitVec.ofNat_toNat, BitVec.setWidth_eq]

/-- Settles O8: the two bytes are what the fetch reads. -/
theorem stepRunsTheDecodedInstruction : Obligations.StepRunsTheDecodedInstruction := by
  rintro s _ _ op i hf hpc rfl rfl hop hd
  have hfe : fetch s = some op := by rw [fetch_eq_some hpc, ← eq_wordOfBytes hop]
  exact ⟨step_decoded hf hfe hd, stepReport_decoded hfe hd⟩

/-- Settles O9: such a STEP only advances, and its report is its signal. -/
theorem unknownOpcodeIsAReportedNoOp : Obligations.UnknownOpcodeIsAReportedNoOp := by
  intro s op hf hfe hd
  have hreport := stepReport_unknown hf hfe hd
  exact ⟨step_unknown hf hfe hd, hreport, stepSignal_of_report hf hreport⟩

/-- Settles O10: from 4095 upwards nothing is fetched. -/
theorem fetchPastMemoryFaults : Obligations.FetchPastMemoryFaults := fun _ hf hpc =>
  have hfe := fetch_eq_none.2 hpc
  ⟨step_unfetched hf hfe, stepReport_unfetched hfe⟩

/-- What a key reads as after KEY: the one named as set, another as before (R223). -/
theorem pressed_set_key (s : State) {k : Nat} (hk : k < 16) (b : Bool) (j : Fin 16) :
    State.pressed { s with key := s.key.set k b } j = if j.val = k then b else s.pressed j := by
  simp only [State.pressed, Vector.getElem_set]
  by_cases h : j.val = k
  · rw [if_pos h, if_pos h.symm]
  · rw [if_neg h, if_neg (Ne.symm h)]

/-- Settles O11: a faulted STEP does nothing; TICK and KEY do not look at the record. -/
theorem faultedCoreOnlyTicksAndTakesKeys : Obligations.FaultedCoreOnlyTicksAndTakesKeys := by
  intro s hf
  refine ⟨step_faulted hf, stepReport_faulted hf, stepSignal_faulted hf, rfl, rfl, rfl, fun k b => ?_⟩
  exact ⟨_, keyEvent_in k.isLt b s, (pressed_set_key s k.isLt b k).trans (if_pos rfl), rfl⟩

/-- A STEP that raises leaves its state with the record, and reports no unknown opcode. -/
theorem step_raises {s t : State} {r : FaultRecord} (hf : s.fault = none) (h : step s = next t) (hr : t.fault = some r) :
    t = { s with fault := some r } ∧ r.pc = s.pc ∧ r.opcode = fetch s ∧ (r.opcode = none ↔ r.kind = .fetchBounds) ∧
      stepReport s = none := by
  rcases step_cases h with ⟨hf', -⟩ | ⟨-, hfe, rfl⟩ | ⟨op, e, -, -, -, rfl⟩ | ⟨op, i, -, hfe, hd, he⟩
  · exact absurd hf hf'
  · cases hr
    exact ⟨rfl, rfl, hfe.symm, ⟨fun _ => rfl, fun _ => rfl⟩, stepReport_unfetched hfe⟩
  · cases hf.symm.trans hr
  · obtain ⟨hc, hrec, rfl⟩ := cause_of_exec_fault (s := s.advance) hf he hr
    have hpc : s.advance.pc - 2 = s.pc := BitVec.add_sub_cancel ..
    rw [hpc, encode_of_decode hd] at hrec ⊢
    rw [hrec]
    refine ⟨rfl, rfl, hfe.symm, ?_, stepReport_decoded hfe hd⟩
    simp [hc.kind_ne_fetchBounds]

/-- Settles O13: what a STEP that raises changes, with its signal. -/
theorem raisingStepChangesOnlyTheRecord : Obligations.RaisingStepChangesOnlyTheRecord := by
  intro s t r hf h hr
  obtain ⟨ht, hpc, hop, hiff, hreport⟩ := step_raises hf h hr
  exact ⟨ht, hpc, hop, hiff, stepSignal_of_raise hf hreport h hr⟩

end Sys2Proof

/-! The four invariants: every STEP and every transaction of the host keeps them (R25, R32, R50, R111, R207). -/

namespace Sys2Proof

open Sys2Proof.Machine Host.Outcome

/-! ## Memory in canonical form -/

/-- Settles O48: of what a STEP can do only an effect stores, inside memory where it has no cause to raise. -/
theorem stepKeepsMemoryCanonical : Obligations.StepKeepsMemoryCanonical := by
  intro s t hw h
  rcases step_cases h with ⟨-, rfl⟩ | ⟨-, -, rfl⟩ | ⟨_, _, -, -, -, rfl⟩ | ⟨_, i, -, -, -, he⟩
  · exact hw
  · exact hw
  · exact hw
  · rcases exec_cases he with ⟨_, _, -, rfl⟩ | ⟨hc, rfl⟩
    · exact hw
    · exact (effect_mem (s := s.advance) hw hc).1

/-! ## Bounded pc and return addresses -/

/-- What is pushed is the address after the CALL, so the return addresses stay bounded. -/
theorem effect_stack_bounded (i : Instr) {s : State} (hpc : s.pc.toNat ≤ 0x1000)
    (hstack : ∀ k : Fin 16, (s.stack[k.val]).toNat ≤ 0x1000) (k : Fin 16) :
    ((effect i s).stack[k.val]).toNat ≤ 0x1000 := by
  by_cases hcall : ∃ nnn, i = .call nnn
  · obtain ⟨nnn, rfl⟩ := hcall
    simp only [effect]
    split
    · rw [Vector.getElem_set]
      split
      · exact hpc
      · exact hstack k
    · exact hstack k
  · simp only [(effect_changesOnly i s).stack_eq (mt stack_mem_mayWrite.1 hcall)]
    exact hstack k

theorem zextAddr_add_zextByte_toNat {nnn : Nat} (h : nnn < 4096) (b : Byte) :
    (zextAddr nnn + zextByte b).toNat = nnn + b.toNat := by
  have hfit : nnn + b.toNat < 2 ^ 16 := by have := b.isLt; omega
  rw [BitVec.toNat_add, zextAddr_toNat h, zextByte_toNat, Nat.mod_eq_of_lt hfit]

theorem skipIf_pc_le {s : State} (hpc : s.pc.toNat ≤ 0x1000) (c : Bool) : (s.skipIf c).pc.toNat ≤ 0x10FE := by
  rw [skipIf_pc_toNat s (c := c) Iff.rfl]
  split <;> omega

/-- Executing again steps pc back to the instruction, or the release leaves pc past it (R174). -/
theorem effect_ldVxK_pc (x : Reg) (s : State) :
    (effect (.ldVxK x) s).pc = s.pc - 2 ∨ (effect (.ldVxK x) s).pc = s.pc ∧ (effect (.ldVxK x) s).wait = none := by
  simp only [effect]
  split
  · unfold awaitRelease
    split
    · exact .inl rfl
    · exact .inr ⟨rfl, rfl⟩
  · exact .inl rfl
  · exact .inl rfl

/-- The largest pc is that of JP V0 with the largest address and byte; a skip adds 2 to at most 0x1000, and a return
address is bounded by hypothesis (R25). -/
theorem effect_pc_bounded {i : Instr} {s : State} (hwf : WellFormed i) (hlo : 2 ≤ s.pc.toNat) (hpc : s.pc.toNat ≤ 0x1000)
    (hstack : ∀ k : Fin 16, (s.stack[k.val]).toNat ≤ 0x1000) : (effect i s).pc.toNat ≤ 0x10FE := by
  have hkeep : s.pc.toNat ≤ 0x10FE := by omega
  by_cases hmoves : .pc ∉ mayWrite i
  · rw [(effect_changesOnly i s).pc_eq hmoves]
    exact hkeep
  cases i with
  | ret =>
    simp only [effect]
    split
    · exact Nat.le_trans (hstack ⟨s.sp.val - 1, by omega⟩) (by decide)
    · exact hkeep
  | jp nnn =>
    have hnnn : nnn < 4096 := of_decide_eq_true hwf
    rw [effect, setPc_pc, zextAddr_toNat hnnn]
    omega
  | call nnn =>
    have hnnn : nnn < 4096 := of_decide_eq_true hwf
    simp only [effect]
    split
    · rw [zextAddr_toNat hnnn]
      omega
    · exact hkeep
  | jpV0 nnn =>
    have hnnn : nnn < 4096 := of_decide_eq_true hwf
    have hbyte := (s.reg V0).isLt
    rw [effect, setPc_pc, zextAddr_add_zextByte_toNat hnnn]
    omega
  | seImm _ _ | sneImm _ _ | seReg _ _ | sneReg _ _ | skp _ | sknp _ => exact skipIf_pc_le hpc _
  | ldVxK x =>
    rcases effect_ldVxK_pc x s with h | ⟨h, -⟩
    · rw [h]
      bv_omega
    · rw [h]
      exact hkeep
  | _ => exact absurd (by simp [mayWrite]) hmoves

/-- A word is fetched only where both its bytes lie in memory, so advancing past it does not wrap (R54, R83). -/
theorem advance_pc_of_fetch {s : State} {op : Word} (h : fetch s = some op) :
    s.pc.toNat ≤ 4094 ∧ s.advance.pc.toNat = s.pc.toNat + 2 := by
  have hle : ¬ 4095 ≤ s.pc.toNat := fun hc => by
    rw [fetch_eq_none.2 hc] at h
    cases h
  rw [advance_eq, setPc_pc]
  bv_omega

/-- Settles O49: a fetch that succeeds leaves pc between 2 and 0x1000, from where every effect keeps the bounds; raising
and a STEP that only advances keep them too. -/
theorem stepKeepsPcBounded : Obligations.StepKeepsPcBounded := by
  rintro s t ⟨hpc, hstack⟩ h
  rcases step_cases h with ⟨-, rfl⟩ | ⟨-, -, rfl⟩ | ⟨op, _, -, hfe, -, rfl⟩ | ⟨op, i, -, hfe, hd, he⟩
  · exact ⟨hpc, hstack⟩
  · exact ⟨hpc, hstack⟩
  · obtain ⟨hle, hadv⟩ := advance_pc_of_fetch hfe
    exact ⟨by omega, hstack⟩
  · obtain ⟨hle, hadv⟩ := advance_pc_of_fetch hfe
    rcases exec_cases he with ⟨_, _, -, rfl⟩ | ⟨-, rfl⟩
    · exact ⟨by rw [raiseAt_pc]; bv_omega, hstack⟩
    · exact ⟨effect_pc_bounded (wellFormed_of_decode hd) (by omega) (by omega) hstack,
        effect_stack_bounded i (by omega) hstack⟩

/-! ## A latched key only at an Fx0A -/

/-- An executing Fx0A that leaves a key latched leaves pc at itself, so the next fetch is of the same word. -/
theorem fetch_effect_ldVxK {x : Reg} {s : State} (h : (effect (.ldVxK x) s.advance).wait ≠ none) :
    fetch (effect (.ldVxK x) s.advance) = fetch s := by
  have hmem : (effect (.ldVxK x) s.advance).mem = s.mem := effect_mem_eq s.advance rfl
  rcases effect_ldVxK_pc x s.advance with hpc | ⟨-, hwait⟩
  · exact fetch_congr (hpc.trans (BitVec.add_sub_cancel ..)) hmem
  · exact absurd hwait h

/-- Settles O50: a STEP with a key latched runs the Fx0A that latched it, and no other instruction latches one. -/
theorem stepKeepsWaitAtKeyWait : Obligations.StepKeepsWaitAtKeyWait := by
  intro s t hs h k hk
  rcases step_cases h with ⟨-, rfl⟩ | ⟨-, hfe, rfl⟩ | ⟨op, e, -, hfe, hd, rfl⟩ | ⟨op, i, hf, hfe, hd, he⟩
  · exact hs k hk
  · obtain ⟨-, x, op, hop, -⟩ := hs k hk
    cases hfe.symm.trans hop
  · obtain ⟨-, x, op', hop, hd'⟩ := hs k hk
    cases hfe.symm.trans hop
    cases hd.symm.trans hd'
  · have hi : ∃ x, i = .ldVxK x := by
      by_contra hi
      have hwait : t.wait = s.wait := exec_keeps (s := s.advance) State.wait he (fun _ _ _ _ => rfl)
        ((effect_changesOnly i _).wait_eq (mt wait_mem_mayWrite.1 hi))
      obtain ⟨-, x, op', hop, hd'⟩ := hs k (hwait.symm.trans hk)
      cases hfe.symm.trans hop
      exact hi ⟨x, Except.ok.inj (hd.symm.trans hd')⟩
    obtain ⟨x, rfl⟩ := hi
    obtain ⟨_, _, hc, -⟩ | ⟨-, rfl⟩ := exec_cases he
    · exact hc.elim
    · have hwait : (effect (.ldVxK x) s.advance).wait ≠ none := by
        rw [hk]
        exact Option.some_ne_none k
      exact ⟨(effect_fault ..).trans hf, x, op, (fetch_effect_ldVxK hwait).trans hfe, hd⟩

/-! ## Reproducible faults -/

/-- Settles O51: a STEP that raises changes only the record, so that taking the record away gives the state before it. -/
theorem stepKeepsFaultReproducible : Obligations.StepKeepsFaultReproducible := by
  intro s t hs h ht
  by_cases hf : s.fault = none
  · obtain ⟨r, hr⟩ := Option.ne_none_iff_exists'.1 ht
    obtain ⟨rfl, -⟩ := step_raises hf h hr
    rw [show ({ s with fault := none } : State) = s from by rw [← hf]]
    exact h
  · cases (step_faulted hf).symm.trans h
    exact hs hf

/-! ## Reset and the host's transactions -/

/-- Settles O52: memory lists nothing, the stack holds zeros, and with no key latched and no record the last two hold. -/
theorem resetMeetsTheInvariants : Obligations.ResetMeetsTheInvariants :=
  ⟨rfl, by decide, fun _ hk => (nomatch hk), fun hf => absurd rfl hf⟩

/-- The state with other timers and keys, which is all that TICK and KEY change. -/
def withHostInputs (dt st : Byte) (ks : Vector Bool 16) (s : State) : State := { s with DT := dt, ST := st, key := ks }

/-- A STEP that raises does so whatever the timers and the keys. -/
theorem step_raises_withHostInputs {s t : State} (dt st : Byte) (ks : Vector Bool 16) (hf : s.fault = none)
    (h : step s = next t) (ht : t.fault ≠ none) :
    step (withHostInputs dt st ks s) = next (withHostInputs dt st ks t) := by
  obtain ⟨r, hr⟩ := Option.ne_none_iff_exists'.1 ht
  have hfetch : fetch (withHostInputs dt st ks s) = fetch s := fetch_congr rfl rfl
  rcases step_cases h with ⟨hf', -⟩ | ⟨-, hfe, rfl⟩ | ⟨_, _, -, -, -, rfl⟩ | ⟨op, i, -, hfe, hd, he⟩
  · exact absurd hf hf'
  · rw [step_unfetched (s := withHostInputs dt st ks s) hf (hfetch.trans hfe)]
    rfl
  · exact absurd hf ht
  · obtain ⟨hc, -, rfl⟩ := cause_of_exec_fault (s := s.advance) hf he hr
    rw [step_decoded (s := withHostInputs dt st ks s) hf (hfetch.trans hfe) hd,
      exec_of_cause (s := (withHostInputs dt st ks s).advance) ((cause_congr rfl rfl rfl _ _ i).2 hc)]
    rfl

/-- A record stays reproducible whatever the host does to timers and keys. -/
theorem faultReproducible_withHostInputs {s : State} (dt st : Byte) (ks : Vector Bool 16) (h : FaultReproducible s) :
    FaultReproducible (withHostInputs dt st ks s) := fun hf =>
  step_raises_withHostInputs dt st ks (s := { s with fault := none }) rfl (h hf) hf

/-- TICK and KEY change timers and keys, which only the last invariant could tell apart; CONSTRUCT starts anew. -/
theorem transact_cases_inputs {tr : Transaction} {s t : State} (hne : tr ≠ .step) (h : transact tr s = next t) :
    (∃ dt st ks, t = withHostInputs dt st ks s) ∨ ∃ font memInit image, t = constructed font memInit image s := by
  rcases transact_cases hne h with rfl | ⟨k, b, hk, rfl⟩ | hcon
  · exact .inl ⟨countDown s.DT, countDown s.ST, s.key, rfl⟩
  · exact .inl ⟨s.DT, s.ST, s.key.set k b, rfl⟩
  · exact .inr hcon

/-- A constructed state is bounded: pc is 0x200 and the stack holds zeros (R230). -/
theorem constructed_pcBounded (font memInit : Nat → Byte) (image : List Byte) (s : State) :
    PcBounded (constructed font memInit image s) := by
  refine ⟨?_, fun k => ?_⟩
  · rw [constructed_pc]
    decide
  · simp

/-- Settles O53: other timers and keys are no matter to memory, pc, stack and fetch; a constructed state has canonical
memory, is bounded, and has no latched key and no record. -/
theorem hostTransactionsKeepTheInvariants : Obligations.HostTransactionsKeepTheInvariants := by
  intro tr s t hne h
  rcases transact_cases_inputs hne h with ⟨dt, st, ks, rfl⟩ | ⟨font, memInit, image, rfl⟩
  · exact ⟨id, id, id, faultReproducible_withHostInputs dt st ks⟩
  · refine ⟨fun _ => ?_, fun _ => constructed_pcBounded .., fun _ k hk => ?_, fun _ hf => absurd rfl hf⟩
    · rw [MemoryCanonical, constructed_mem]
      exact Memory.wf_ofBytes _
    · cases hk

end Sys2Proof

/-! DRW (R101) and what drawing twice does (R102). -/

namespace Sys2Proof

open Sys2Proof.Machine Host.Outcome

/-- A lit cell is on the screen (R31). -/
theorem onscreen_of_cell {s : State} {px py : Nat} (h : s.cell px py = true) : px < 64 ∧ py < 32 := by
  by_contra hoff
  rw [cell_offscreen s (mt And.symm hoff)] at h
  cases h

/-- On the screen the picture is the sprite's. -/
theorem drwPicture_eq {px : Nat} (h : px < 64) (x y : Reg) (n : Nat) (s : State) (py : Nat) :
    drwPicture x y n s px py = SpriteAt s ((s.reg x).toNat % 64) ((s.reg y).toNat % 32) (rowsDrawn s y n) px py := by
  rw [drwPicture, decide_eq_true h, Bool.true_and]

/-- No picture reaches past the right or the bottom edge (R101). -/
theorem onscreen_of_drwPicture {x y : Reg} {n : Nat} {s : State} {px py : Nat} (h : drwPicture x y n s px py = true) :
    px < 64 ∧ py < 32 := by
  have hrows := origin_add_rowsDrawn_le s y n
  simp only [drwPicture, SpriteAt, Bool.and_eq_true, decide_eq_true_eq] at h
  omega

theorem exec_drw {x y : Reg} {n : Nat} {s : State} (h : rowsDrawn s y n = 0 ∨ s.I.toNat + rowsDrawn s y n ≤ 4096) :
    exec (.drw x y n) s = next (effect (.drw x y n) s) := exec_drw_of_inside h

/-- Settles O25: DRW draws its picture, and what draws a picture changes registers and display alone. -/
theorem drwInvertsTheCellsOfItsSprite : Obligations.DrwInvertsTheCellsOfItsSprite := by
  intro x y n s hin
  have hd := effect_drw_drawn x y n s
  have hch := effect_changesOnly (.drw x y n) s
  refine ⟨_, exec_drw hin, fun px py hpx _ => ?_, ?_, fun hmiss => ?_, hch.I_eq (by simp [mayWrite]),
    hch.mem_eq (by simp [mayWrite]), hch.pc_eq (by simp [mayWrite])⟩
  · rw [hd.cells, drwPicture_eq hpx, setReg_cell]
  · rintro ⟨px, py, hpx, -, hcell, hbit⟩
    exact hd.hit px py hcell ((drwPicture_eq hpx ..).trans hbit)
  · have hVF : (effect (.drw x y n) s).reg VF = (s.setReg VF 0).reg VF := hd.miss fun px py hcell => by
      obtain ⟨hpx, hpy⟩ := onscreen_of_cell hcell
      exact (drwPicture_eq hpx ..).trans (hmiss px py hpx hpy hcell)
    rw [hVF, setReg_reg, if_pos rfl]

/-- With VF cleared before, a picture leaves 1 in VF exactly where it meets a lit cell. -/
theorem drawn_VF_eq_one_iff {s t : State} {p : Nat → Nat → Bool} (h : Drawn s p t) (hVF : s.reg VF = 0) :
    t.reg VF = 1 ↔ ∃ px py, s.cell px py = true ∧ p px py = true := by
  constructor
  · intro h1
    by_contra hno
    have h0 : t.reg VF = s.reg VF := h.miss fun px py hcell =>
      Bool.eq_false_iff.2 fun hp => hno ⟨px, py, hcell, hp⟩
    rw [h0, hVF] at h1
    exact absurd h1 (by decide)
  · rintro ⟨px, py, hcell, hp⟩
    exact h.hit px py hcell hp

/-- The same bytes drawn at the same origin are the same picture. -/
theorem drwPicture_congr {x y x' y' : Reg} {n : Nat} {s u : State} (hx : (u.reg x').toNat % 64 = (s.reg x).toNat % 64)
    (hy : (u.reg y').toNat % 32 = (s.reg y).toNat % 32)
    (hbytes : ∀ r, r < n → u.mem.read (u.I.toNat + r) = s.mem.read (s.I.toNat + r)) (px py : Nat) :
    drwPicture x' y' n u px py = drwPicture x y n s px py := by
  have hrows : rowsDrawn u y' n = rowsDrawn s y n := by rw [rowsDrawn, rowsDrawn, hy]
  simp only [drwPicture, SpriteAt, hrows, hx, hy]
  by_cases hrow : (s.reg y).toNat % 32 ≤ py ∧ py < (s.reg y).toNat % 32 + rowsDrawn s y n
  · have hle := rowsDrawn_le s y n
    rw [hbytes _ (by omega)]
  · rcases not_and_or.1 hrow with h | h
    · simp only [h, decide_false, Bool.and_false, Bool.false_and]
    · simp only [h, decide_false, Bool.and_false, Bool.false_and]

/-- Settles O26: inverting the same picture twice inverts nothing, and a cell lit between the two drawings was clear before
them where the picture has a 1-bit. -/
theorem drawingTwiceRestoresTheDisplay : Obligations.DrawingTwiceRestoresTheDisplay := by
  intro x y x' y' n s t u hin ht hdisp hx hy hbytes
  have hrows : rowsDrawn u y' n = rowsDrawn s y n := by rw [rowsDrawn, rowsDrawn, hy]
  have hu : exec (.drw x' y' n) u = next (effect (.drw x' y' n) u) := exec_drw (by rw [hrows]; omega)
  obtain rfl : effect (.drw x y n) s = t := next.inj ((exec_drw (by omega)).symm.trans ht)
  have hbetween (px py) : u.cell px py = (s.cell px py ^^ drwPicture x y n s px py) :=
    (cell_congr hdisp px py).trans ((effect_drw_drawn x y n s).cells px py)
  have hd := (effect_drw_drawn x' y' n u).congr (drwPicture_congr hx hy hbytes)
  refine ⟨_, hu, fun px py _ _ => ?_, (drawn_VF_eq_one_iff hd (by simp)).trans ?_⟩
  · rw [hd.cells, setReg_cell, hbetween, Bool.xor_assoc, Bool.xor_self, Bool.xor_false]
  · simp only [setReg_cell, hbetween]
    constructor
    · rintro ⟨px, py, hlit, hp⟩
      obtain ⟨hpx, hpy⟩ := onscreen_of_drwPicture hp
      exact ⟨px, py, hpx, hpy, by simpa [hp] using hlit, (drwPicture_eq hpx ..).symm.trans hp⟩
    · rintro ⟨px, py, hpx, -, hclear, hbit⟩
      have hp := (drwPicture_eq hpx ..).trans hbit
      exact ⟨px, py, by rw [hclear, hp]; rfl, hp⟩

end Sys2Proof

/-! The instructions with a flag (R138 to R142), in the order of their writes, and RND (R143). -/

namespace Sys2Proof

open Sys2Proof.Machine Host.Outcome

/-! ## Flags -/

theorem flagByte_toNat (b : Bool) : (flagByte b).toNat = b.toNat := by
  cases b <;> rfl

theorem flagByte_toNat_of_iff {b : Bool} {p : Prop} [Decidable p] (h : b = true ↔ p) :
    (flagByte b).toNat = if p then 1 else 0 := by
  rw [flagByte_toNat]
  split
  · next hp => rw [h.2 hp]; rfl
  · next hp => rw [Bool.eq_false_iff.2 (mt h.1 hp)]; rfl

theorem carryOut_iff (a b : Byte) : carryOut a b = true ↔ a.toNat + b.toNat > 255 := decide_eq_true_iff

theorem notBorrow_iff (a b : Byte) : notBorrow a b = true ↔ a.toNat > b.toNat := decide_eq_true_iff

theorem shiftedOutRight_toNat (a : Byte) : (flagByte (shiftedOutRight a)).toNat = a.toNat % 2 := by
  rw [flagByte_toNat, shiftedOutRight, BitVec.getLsbD, Nat.toNat_testBit, Nat.pow_zero, Nat.div_one]

theorem shiftedOutLeft_toNat (a : Byte) : (flagByte (shiftedOutLeft a)).toNat = a.toNat / 128 := by
  have hlt := a.isLt
  rw [flagByte_toNat, shiftedOutLeft, BitVec.getLsbD, Nat.toNat_testBit]
  omega

/-! ## ADD Vx, Vy -/

theorem exec_addReg (x y : Reg) (s : State) :
    exec (.addReg x y) s = next ((s.setReg x (s.reg x + s.reg y)).setFlag (carryOut (s.reg x) (s.reg y))) := rfl

/-- Settles O34: VF is written last, so it holds the carry whichever register x is. -/
theorem addRegistersWritesTheCarryLast : Obligations.AddRegistersWritesTheCarryLast := by
  intro x y s
  refine ⟨_, exec_addReg x y s, rfl, ?_, fun hx => ?_, fun r hrx hrVF => ?_⟩
  · rw [setFlag_eq, setReg_reg, if_pos rfl, flagByte_toNat_of_iff (carryOut_iff ..)]
  · rw [setFlag_eq, setReg_reg, if_neg hx, setReg_reg, if_pos rfl, BitVec.toNat_add]
  · rw [setFlag_eq, setReg_reg, if_neg hrVF, setReg_reg, if_neg hrx]

/-! ## The flag first, then the result -/

/-- The flag `c` written to VF, then to Vx what `v` reads in the state with that flag (R139 to R142). -/
def flagThenResult (c : Bool) (x : Reg) (v : State → Byte) (s : State) : State :=
  (s.setFlag c).setReg x (v (s.setFlag c))

section
variable (c : Bool) (x : Reg) (v : State → Byte) (s : State)

theorem flagThenResult_eq_set_V : flagThenResult c x v s = { s with V := (flagThenResult c x v s).V } := rfl

theorem flagThenResult_reg_dest : (flagThenResult c x v s).reg x = v (s.setFlag c) := by
  rw [flagThenResult, setReg_reg, if_pos rfl]

theorem flagThenResult_reg_VF (hx : x ≠ VF) : (flagThenResult c x v s).reg VF = flagByte c := by
  rw [flagThenResult, setReg_reg, if_neg hx.symm, setFlag_eq, setReg_reg, if_pos rfl]

theorem flagThenResult_reg_other (r : Reg) (hx : r ≠ x) (hVF : r ≠ VF) : (flagThenResult c x v s).reg r = s.reg r := by
  rw [flagThenResult, setReg_reg, if_neg hx, setFlag_eq, setReg_reg, if_neg hVF]

end

theorem exec_sub (x y : Reg) (s : State) :
    exec (.sub x y) s = next (flagThenResult (notBorrow (s.reg x) (s.reg y)) x (fun u => u.reg x - u.reg y) s) := rfl

theorem exec_subn (x y : Reg) (s : State) :
    exec (.subn x y) s = next (flagThenResult (notBorrow (s.reg y) (s.reg x)) x (fun u => u.reg y - u.reg x) s) := rfl

theorem exec_shr (x y : Reg) (s : State) :
    exec (.shr x y) s = next (flagThenResult (shiftedOutRight (s.reg x)) x (fun u => u.reg x >>> 1) s) := rfl

theorem exec_shl (x y : Reg) (s : State) :
    exec (.shl x y) s = next (flagThenResult (shiftedOutLeft (s.reg x)) x (fun u => u.reg x <<< 1) s) := rfl

/-! ## SUB and SUBN -/

theorem byte_sub_toNat (a b : Byte) : (a - b).toNat = (a.toNat + 256 - b.toNat) % 256 := by
  have hb := b.isLt
  rw [BitVec.toNat_sub]
  congr 1
  omega

/-- A register with the flag written, VF read as the flag. -/
theorem setFlag_reg_toNat (s : State) (c : Bool) (q : Reg) :
    ((s.setFlag c).reg q).toNat = if q = VF then (flagByte c).toNat else (s.reg q).toNat := by
  rw [setFlag_eq, apply_setReg_reg BitVec.toNat]

/-- The difference of registers `a` and `b`, with the flag in place of VF where VF is an operand. -/
theorem difference_reg_toNat (c : Bool) (x a b : Reg) (s : State) :
    ((flagThenResult c x (fun u => u.reg a - u.reg b) s).reg x).toNat =
      ((if a = VF then (flagByte c).toNat else (s.reg a).toNat) + 256 -
        (if b = VF then (flagByte c).toNat else (s.reg b).toNat)) % 256 := by
  rw [flagThenResult_reg_dest, byte_sub_toNat, setFlag_reg_toNat, setFlag_reg_toNat]

/-- A register less itself, with whatever flag. -/
theorem difference_reg_self (c : Bool) (x : Reg) (s : State) :
    ((flagThenResult c x (fun u => u.reg x - u.reg x) s).reg x).toNat = 0 := by
  rw [flagThenResult_reg_dest, BitVec.sub_self]
  rfl

/-- Settles O35: both are a flag and then a difference, with minuend and subtrahend exchanged. -/
theorem subtractionsWriteTheFlagFirst : Obligations.SubtractionsWriteTheFlagFirst := by
  intro x y s
  refine ⟨⟨_, _, exec_sub x y s, flagThenResult_eq_set_V .., flagByte_toNat_of_iff (notBorrow_iff ..),
      fun hx => congrArg _ (flagThenResult_reg_VF _ _ _ s hx), fun hx hy => ?_, fun hx hy => ?_, fun hx hy => ?_,
      fun hxy => ?_, flagThenResult_reg_other _ _ _ s⟩,
    ⟨_, _, exec_subn x y s, flagThenResult_eq_set_V .., flagByte_toNat_of_iff (notBorrow_iff ..),
      fun hx => congrArg _ (flagThenResult_reg_VF _ _ _ s hx), fun hx hy => ?_, fun hx hy => ?_, fun hx hy => ?_,
      fun hxy => ?_, flagThenResult_reg_other _ _ _ s⟩⟩
  · rw [difference_reg_toNat, if_neg hx, if_neg hy]
  · rw [difference_reg_toNat, if_neg hx, if_pos hy]
  · rw [difference_reg_toNat, if_pos hx, if_neg hy]
  · subst hxy
    exact difference_reg_self ..
  · rw [difference_reg_toNat, if_neg hx, if_neg hy]
  · rw [difference_reg_toNat, if_neg hx, if_pos hy]
  · rw [difference_reg_toNat, if_pos hx, if_neg hy]
  · subst hxy
    exact difference_reg_self ..

/-! ## SHR and SHL -/

/-- Settles O36: with x = 15 what is shifted is the flag. -/
theorem shiftsWriteTheBitShiftedOutFirst : Obligations.ShiftsWriteTheBitShiftedOutFirst := by
  intro x y s
  refine ⟨⟨_, exec_shr x y s, flagThenResult_eq_set_V .., fun hx => ⟨?_, ?_⟩, fun hx => ?_,
      flagThenResult_reg_other _ _ _ s⟩,
    ⟨_, exec_shl x y s, flagThenResult_eq_set_V .., fun hx => ⟨?_, ?_⟩, fun hx => ?_,
      flagThenResult_reg_other _ _ _ s⟩⟩
  · rw [flagThenResult_reg_dest, BitVec.toNat_ushiftRight, setFlag_reg_toNat, if_neg hx, Nat.shiftRight_one]
  · rw [flagThenResult_reg_VF _ _ _ _ hx, shiftedOutRight_toNat]
  · rw [flagThenResult_reg_dest, BitVec.toNat_ushiftRight, setFlag_reg_toNat, if_pos hx, shiftedOutRight_toNat,
      Nat.shiftRight_one]
    omega
  · rw [flagThenResult_reg_dest, BitVec.toNat_shiftLeft, setFlag_reg_toNat, if_neg hx, Nat.shiftLeft_eq]
  · rw [flagThenResult_reg_VF _ _ _ _ hx, shiftedOutLeft_toNat]
  · have hlt := (s.reg x).isLt
    rw [flagThenResult_reg_dest, BitVec.toNat_shiftLeft, setFlag_reg_toNat, if_pos hx, shiftedOutLeft_toNat,
      Nat.shiftLeft_eq]
    omega

/-! ## RND -/

theorem exec_rnd (x : Reg) (kk : Byte) (s : State) :
    exec (.rnd x kk) s = next (s.countDraw.setReg x (s.nextDraw &&& kk)) := rfl

/-- Settles O37: the drawn byte is `nextDraw`, of which nothing is used but that it is one. -/
theorem rndMasksAFreeByte : Obligations.RndMasksAFreeByte := by
  intro x kk s
  refine ⟨_, s.nextDraw, exec_rnd x kk s, rfl, rfl, fun q hq => ?_, fun b => ?_, fun hkk => ?_⟩
  · rw [setReg_reg, if_neg hq, countDraw_reg]
  · rw [setReg_reg, if_pos rfl, BitVec.getLsbD_and]
  · rw [setReg_reg, if_pos rfl, hkk]
    exact BitVec.and_zero

end Sys2Proof

/-! RET, CALL and the two jumps (R111 to R113, R118). -/

namespace Sys2Proof

open Sys2Proof.Machine Host.Outcome

/-- Settles O27: with sp above 0 RET pops, with sp 0 it raises. -/
theorem retPopsTheNewestReturnAddress : Obligations.RetPopsTheNewestReturnAddress := by
  refine fun s => ⟨fun k hk => ?_, fun hempty => exec_ret_of_empty hempty⟩
  refine ⟨_, exec_ret_of_pos (by omega), ?_, ?_, rfl⟩
  · simp only [hk, Nat.add_sub_cancel]
  · exact Nat.sub_eq_of_eq_add hk

theorem encode_call_toNat {nnn : Nat} (h : nnn < 4096) : (encode (.call nnn)).toNat = 0x2000 + nnn := by
  rw [encode, wordNNN, BitVec.toNat_ofNat]
  omega

/-- Settles O28: with sp below 16 CALL pushes, with sp 16 it raises. -/
theorem callPushesTheAddressAfterIt : Obligations.CallPushesTheAddressAfterIt := by
  refine fun nnn s hnnn => ⟨fun k hk => ?_, fun hfull => ?_⟩
  · refine ⟨_, exec_call_of_lt nnn (by omega), zextAddr_toNat hnnn, congrArg (· + 1) hk, ?_⟩
    simp only [hk, Vector.getElem_set_self]
  · exact ⟨encode (.call nnn), encode_call_toNat hnnn, exec_call_of_full nnn hfull⟩

/-- Settles O29: the entry RET pops is the one CALL pushed, at the depth before the CALL. -/
theorem retAfterCallResumesAfterTheCall : Obligations.RetAfterCallResumesAfterTheCall := by
  intro nnn s t hroom hcall u hsp hstack
  rw [exec_call_of_lt nnn hroom] at hcall
  cases hcall
  have hdepth : u.sp.val = s.sp.val + 1 := congrArg Fin.val hsp
  refine ⟨_, exec_ret_of_pos (by omega), ?_, Fin.ext (Nat.sub_eq_of_eq_add hdepth)⟩
  simp only [hdepth, hstack, Nat.add_sub_cancel, Vector.getElem_set_self]

theorem exec_jp (nnn : Nat) (s : State) : exec (.jp nnn) s = next (s.setPc (zextAddr nnn)) := rfl

theorem exec_jpV0 (nnn : Nat) (s : State) :
    exec (.jpV0 nnn) s = next (s.setPc (zextAddr nnn + zextByte (s.reg V0))) := rfl

/-- Settles O30: each is one write of pc, of a value that fits 16 bits. -/
theorem jumpsReplacePc : Obligations.JumpsReplacePc := fun nnn s hnnn =>
  ⟨⟨_, exec_jp nnn s, zextAddr_toNat hnnn, rfl⟩,
    ⟨_, exec_jpV0 nnn s, zextAddr_add_zextByte_toNat hnnn (s.reg V0), rfl⟩⟩

end Sys2Proof

/-! ADD I, Vx and the data accesses at I (R153, R155 to R157). -/

namespace Sys2Proof

open Sys2Proof.Machine Host.Outcome

/-- Settles O39: a sum that fits is written to I as it is. -/
theorem addToIndexNeverWraps : Obligations.AddToIndexNeverWraps := by
  refine fun x s => ⟨fun hfits => ?_, fun hwraps => exec_addI_of_wraps hwraps⟩
  refine ⟨_, exec_addI_of_fits hfits, ?_, rfl⟩
  rw [setI_I, BitVec.toNat_ofNat]
  omega

/-- Of a range that passes 4095, the lowest address above it (R58). -/
theorem lowestOutside_max {base len : Nat} (h0 : 0 < len) (h : base + len > 4096) :
    LowestOutside base len (max base 4096) := firstOutside_eq_some.1 (if_pos ⟨h0, h⟩)

/-- Settles O40: the three bytes written are the digits, each below 10 and so a byte. -/
theorem bcdStoresThreeDigits : Obligations.BcdStoresThreeDigits := by
  intro x s hw
  refine ⟨fun hin => ?_, fun hout => exec_ldB_of_outside x (lowestOutside_max (by decide) (by omega))⟩
  have hread := Memory.read_writeMany (vs := bcdDigits (s.reg x)) hw (base := s.I.toNat) (by rw [bcdDigits_length]; omega)
  have hbyte := (s.reg x).isLt
  rw [bcdDigits_length] at hread
  refine ⟨_, exec_ldB_of_inside x (by omega), rfl, ?_, ?_, ?_, fun a ha => ?_⟩
  · rw [hread, if_pos (by omega), Nat.sub_self]
    simp only [bcdDigits, List.getD_cons_zero, BitVec.toNat_ofNat]
    omega
  · rw [hread, if_pos (by omega), Nat.add_sub_cancel_left]
    simp only [bcdDigits, List.getD_cons_succ, List.getD_cons_zero, BitVec.toNat_ofNat]
    omega
  · rw [hread, if_pos (by omega), Nat.add_sub_cancel_left]
    simp only [bcdDigits, List.getD_cons_succ, List.getD_cons_zero, BitVec.toNat_ofNat]
    omega
  · rw [hread, if_neg (by omega)]

/-- What Fx55 leaves where its range lies in memory: memory alone changes, the range to V0 to Vx (R156). -/
theorem exec_ldStore_stores {x : Reg} {s : State} (hw : MemoryCanonical s) (hin : s.I.toNat + x.val ≤ 4095) :
    ∃ t, exec (.ldStore x) s = next t ∧ t = { s with mem := t.mem } ∧
      (∀ r : Reg, r ≤ x → t.mem.read (s.I.toNat + r.val) = s.reg r) ∧
      (∀ a, a < s.I.toNat ∨ s.I.toNat + x.val + 1 ≤ a → t.mem.read a = s.mem.read a) := by
  obtain ⟨hrest, -, hread⟩ := forUpTo_storeReg hw (n := x.val + 1) (by omega) (by omega)
  refine ⟨_, exec_ldStore_of_inside (by omega), hrest, fun r hr => ?_, fun a ha => ?_⟩
  · have hle : r.val ≤ x.val := hr
    rw [hread, dif_pos (by omega)]
    simp only [Nat.add_sub_cancel_left, Fin.eta]
  · rw [hread, dif_neg (by omega)]

/-- Settles O41: the range lies in memory, or its lowest address above 4095 is the larger of I and 4096. -/
theorem storeWritesVZeroToVx : Obligations.StoreWritesVZeroToVx := fun _ _ hw =>
  ⟨fun hin => exec_ldStore_stores hw hin,
    fun hout => exec_ldStore_of_outside (lowestOutside_max (Nat.succ_pos _) (by omega))⟩

/-- What Fx65 leaves where its range lies in memory: the registers alone change, V0 to Vx to the range (R157). -/
theorem exec_ldLoad_loads {x : Reg} {s : State} (hin : s.I.toNat + x.val ≤ 4095) :
    ∃ t, exec (.ldLoad x) s = next t ∧ t = { s with V := t.V } ∧
      ∀ r : Reg, t.reg r = if r ≤ x then s.mem.read (s.I.toNat + r.val) else s.reg r := by
  obtain ⟨hrest, hreg⟩ := forUpTo_loadReg s (n := x.val + 1) (by omega)
  refine ⟨_, exec_ldLoad_of_inside (by omega), hrest, fun r => (hreg r).trans ?_⟩
  simp only [Nat.lt_succ_iff, Fin.le_def]

/-- Settles O42, with the same two cases of the range. -/
theorem loadReadsVZeroToVx : Obligations.LoadReadsVZeroToVx := fun _ _ =>
  ⟨fun hin => exec_ldLoad_loads hin,
    fun hout => exec_ldLoad_of_outside (lowestOutside_max (Nat.succ_pos _) (by omega))⟩

/-- Settles O43: the bytes loaded are the bytes stored. -/
theorem loadRestoresWhatStoreSaved : Obligations.LoadRestoresWhatStoreSaved := by
  intro x s t u hw hin hstore hI hbytes
  obtain ⟨t', ht', -, hstored, -⟩ := exec_ldStore_stores hw hin
  obtain rfl : t' = t := next.inj (ht'.symm.trans hstore)
  obtain ⟨w, hload, -, hreg⟩ := exec_ldLoad_loads (s := u) (x := x) (by rwa [hI])
  refine ⟨w, hload, fun r => ?_⟩
  rw [hreg, hI]
  by_cases hr : r ≤ x
  · have hle : r.val ≤ x.val := hr
    rw [if_pos hr, if_pos hr, hbytes _ (by omega) (by omega), hstored r hr]
  · rw [if_neg hr, if_neg hr]

/-- Settles O15: the fetch reads two of the stored bytes. -/
theorem fetchReadsWhatAStoreWrote : Obligations.FetchReadsWhatAStoreWrote := by
  intro s x k hk hw hin
  obtain ⟨t, ht, -, hstored, -⟩ := exec_ldStore_stores hw hin
  have hx := x.isLt
  refine ⟨t, ht, fun u hmem hpc => ?_⟩
  have hhi := hstored ⟨k, by omega⟩ (Fin.le_def.2 (Nat.le_of_lt hk))
  have hlo := hstored ⟨k + 1, by omega⟩ (Fin.le_def.2 hk)
  rw [fetch_eq_some (by omega), hmem, hpc, hhi, Nat.add_assoc, hlo]

end Sys2Proof

/-! The key skips, the timer transfers and the key wait (R170 to R176). -/

namespace Sys2Proof

open Sys2Proof.Machine Host.Outcome

/-- Settles O44: both are skips by the key Vx names, and raise where it names none. -/
theorem keySkipsReadTheNamedKey : Obligations.KeySkipsReadTheNamedKey := by
  refine fun x s => ⟨fun k hk => ⟨?_, ?_⟩, fun hrange => ⟨exec_skp_of_range hrange, exec_sknp_of_range hrange⟩⟩
  · exact ⟨_, exec_skp_of_key hk, skipIf_eq_set_pc s _, skipIf_pc_toNat s Iff.rfl⟩
  · exact ⟨_, exec_sknp_of_key hk, skipIf_eq_set_pc s _, skipIf_pc_toNat s (by rw [Bool.not_eq_true'])⟩

theorem exec_ldVxDt (x : Reg) (s : State) : exec (.ldVxDt x) s = next (s.setReg x s.DT) := rfl

theorem exec_ldDtVx (x : Reg) (s : State) : exec (.ldDtVx x) s = next (s.setDT (s.reg x)) := rfl

theorem exec_ldStVx (x : Reg) (s : State) : exec (.ldStVx x) s = next (s.setST (s.reg x)) := rfl

/-- Settles O45: the sound output asks for a positive timer, which a byte is unless it is 0. -/
theorem timerTransfers : Obligations.TimerTransfers := by
  refine fun x s => ⟨⟨_, exec_ldVxDt x s, rfl, setReg_reg s x s.DT⟩, ⟨_, exec_ldDtVx x s, rfl⟩,
    ⟨_, exec_ldStVx x s, rfl, (soundActive_iff _).trans ?_⟩⟩
  rw [setST_ST, Nat.pos_iff_ne_zero, BitVec.toNat_ne]
  rfl

/-- Settles O46, case by case of the latch and the key. -/
theorem keyWaitLatchesAndStores : Obligations.KeyWaitLatchesAndStores := by
  refine fun x s => ⟨fun hwait hnone => exec_ldVxK_of_idle hwait hnone,
    fun k hwait hk hlow => exec_ldVxK_of_press hwait hk hlow, fun k hwait hk => ?_, fun k hwait hk => ?_⟩
  · rw [exec_ldVxK_of_latched hwait, awaitRelease_held hk]
    rfl
  · rw [exec_ldVxK_of_latched hwait, awaitRelease_released hk]
    refine ⟨_, rfl, rfl, ?_, fun r hr => ?_⟩
    · rw [setWait_reg, setReg_reg, if_pos rfl, BitVec.toNat_ofNat]
      omega
    · rw [setWait_reg, setReg_reg, if_neg hr]

/-! ## A whole key wait -/

/-- The STEP that finds the first key pressed latches it and stays at its instruction (R174). -/
theorem step_ldVxK_of_press {s : State} {x : Reg} {k : Fin 16} (hf : s.fault = none) (hi : FetchesInstr s (.ldVxK x))
    (hwait : s.wait = none) (hk : s.pressed k = true) (hlow : ∀ j, j < k → s.pressed j = false) :
    step s = next (s.setWait (some k)) := by
  obtain ⟨op, hfe, hd⟩ := hi
  rw [step_decoded hf hfe hd, exec_ldVxK_of_press (s := s.advance) hwait hk hlow]
  have hpc : s.pc + 2 - 2 = s.pc := BitVec.add_sub_cancel ..
  simp only [advance_eq, regress_eq, setWait_pc, setPc_pc, hpc]
  rfl

/-- The STEP that finds the latched key released stores its index and goes on (R174). -/
theorem step_ldVxK_of_release {s : State} {x : Reg} {k : Fin 16} (hf : s.fault = none) (hi : FetchesInstr s (.ldVxK x))
    (hwait : s.wait = some k) (hk : s.pressed k = false) :
    step s = next ((s.advance.setReg x (BitVec.ofNat 8 k.val)).setWait none) := by
  obtain ⟨op, hfe, hd⟩ := hi
  rw [step_decoded hf hfe hd, exec_ldVxK_of_latched (s := s.advance) hwait, awaitRelease_released (s := s.advance) hk]

/-- Two schedules that complete, one after the other. -/
theorem transactAll_then {ts us : List Transaction} {s t u : State} (hts : transactAll ts s = next t)
    (hus : transactAll us t = next u) : transactAll (ts ++ us) s = next u :=
  (transactAll_append hts).trans hus

theorem transactAll_singleton {tr : Transaction} {s t : State} (h : transact tr s = next t) :
    transactAll [tr] s = next t := by
  rw [transactAll, h]
  rfl

/-- The first half of a key wait: KEY presses, TICKs count, the STEP latches. -/
theorem press_then_step_latches {x : Reg} {k : Fin 16} (l : Nat) {s : State} (hf : s.fault = none) (hwait : s.wait = none)
    (hi : FetchesInstr s (.ldVxK x)) (hnone : ∀ j, s.pressed j = false) :
    ∃ dt st, transactAll ([.key k.val true] ++ List.replicate l .tick ++ [.step]) s =
      next { s with key := s.key.set k.val true, DT := dt, ST := st, wait := some k } := by
  have hkey : transactAll [.key k.val true] s = next { s with key := s.key.set k.val true } :=
    transactAll_singleton (keyEvent_in k.isLt true s)
  have hpressed := pressed_set_key s k.isLt true
  obtain ⟨dt, st, hticks⟩ := transactAll_ticks l { s with key := s.key.set k.val true }
  refine ⟨dt, st, transactAll_then (transactAll_then hkey hticks) (transactAll_singleton ?_)⟩
  exact step_ldVxK_of_press hf hi hwait ((hpressed k).trans (if_pos rfl)) fun j hj =>
    (hpressed j).trans ((if_neg (Nat.ne_of_lt hj)).trans (hnone j))

/-- The second half: TICKs count, KEY releases, TICKs count, the STEP stores the index. -/
theorem release_then_step_completes {x : Reg} {k : Fin 16} (m n : Nat) {s : State} (hf : s.fault = none)
    (hwait : s.wait = some k) (hi : FetchesInstr s (.ldVxK x)) :
    ∃ t, transactAll (List.replicate m .tick ++ [.key k.val false] ++ List.replicate n .tick ++ [.step]) s = next t ∧
      (t.reg x).toNat = k.val ∧ t.wait = none ∧ t.pc = s.pc + 2 ∧ t.fault = none := by
  obtain ⟨dt, st, hticks⟩ := transactAll_ticks m s
  have hkey := transactAll_singleton (tr := .key k.val false) (keyEvent_in k.isLt false { s with DT := dt, ST := st })
  obtain ⟨dt', st', hticks'⟩ := transactAll_ticks n { s with DT := dt, ST := st, key := s.key.set k.val false }
  have hreleased := (pressed_set_key s k.isLt false k).trans (if_pos rfl)
  refine ⟨_, transactAll_then (transactAll_then (transactAll_then hticks hkey) hticks')
    (transactAll_singleton (step_ldVxK_of_release hf hi hwait hreleased)), ?_, rfl, rfl, hf⟩
  rw [setWait_reg, setReg_reg, if_pos rfl, BitVec.toNat_ofNat]
  omega

/-- Settles O47: the press and the release, one after the other. -/
theorem pressAndReleaseCompleteTheKeyWait : Obligations.PressAndReleaseCompleteTheKeyWait := by
  intro x k l m n s hf hwait hi hnone
  obtain ⟨dt, st, hpress⟩ := press_then_step_latches (k := k) l hf hwait hi hnone
  obtain ⟨t, hrelease, hend⟩ := release_then_step_completes (x := x) (k := k) m n
    (s := { s with key := s.key.set k.val true, DT := dt, ST := st, wait := some k }) hf rfl hi
  exact ⟨t, by simpa only [List.append_assoc] using transactAll_then hpress hrelease, hend⟩

end Sys2Proof

/-! The transactions of the host, reset and the idle loop (R215, R222 to R224, R230, R241). -/

namespace Sys2Proof

open Sys2Proof.Machine Host.Outcome

/-- Settles O54, by induction on the number of TICKs, each of which takes one from a timer that is not 0. -/
theorem ticksCountDownToZero : Obligations.TicksCountDownToZero := by
  intro n
  induction n with
  | zero => exact fun s => ⟨s, rfl, rfl, rfl, rfl⟩
  | succ n ih =>
    intro s
    obtain ⟨t, hrun, hDT, hST, hrest⟩ := ih (tick s)
    have hDT1 : (tick s).DT.toNat = s.DT.toNat - 1 := countDown_toNat s.DT
    have hST1 : (tick s).ST.toNat = s.ST.toNat - 1 := countDown_toNat s.ST
    exact ⟨t, hrun, by omega, by omega, hrest⟩

/-- Settles O55: KEY writes one entry of the keys, or refuses the index. -/
theorem keySetsOneKey : Obligations.KeySetsOneKey := fun k b s =>
  ⟨fun hk => ⟨_, keyEvent_in (by omega) b s, rfl, pressed_set_key s (by omega) b⟩, fun hk => keyEvent_out hk b s⟩

/-! ## What CONSTRUCT leaves in memory -/

theorem constructByte_font (font memInit : Nat → Byte) (image : List Byte) {a : Nat} (h : a < 80) :
    constructByte font memInit image a = font a := if_pos h

theorem constructByte_image (font memInit : Nat → Byte) {image : List Byte} {a : Nat} (h : a < image.length) :
    constructByte font memInit image (512 + a) = image[a] := by
  rw [constructByte, if_neg (by omega), if_pos (by omega), Nat.add_sub_cancel_left, List.getD_eq_getElem]

theorem constructByte_fill (font memInit : Nat → Byte) {image : List Byte} {a : Nat} (h80 : 80 ≤ a)
    (h : a < 512 ∨ 512 + image.length ≤ a) : constructByte font memInit image a = memInit a := by
  rw [constructByte, if_neg (by omega), if_neg (by omega)]

theorem constructed_read (font memInit : Nat → Byte) (image : List Byte) (s : State) {a : Nat} (h : a < 4096) :
    (constructed font memInit image s).mem.read a = constructByte font memInit image a := by
  rw [constructed_mem, Memory.read_ofBytes _ h]

/-- Settles O56: every byte reads as CONSTRUCT put it: font, image or fill. -/
theorem constructBuildsTheStartState : Obligations.ConstructBuildsTheStartState := by
  refine fun font memInit image s => ⟨fun hfits => ?_, fun hlarge => construct_too_large font memInit hlarge s⟩
  refine ⟨_, construct_fits font memInit hfits s, fun a ha => ?_, fun a ha => ?_, fun a h80 ha hout => ?_,
    constructed_eq font memInit image s⟩
  · rw [constructed_read _ _ _ _ (by omega), constructByte_font _ _ _ ha]
  · rw [constructed_read _ _ _ _ (by omega), constructByte_image _ _ ha]
  · rw [constructed_read _ _ _ _ ha, constructByte_fill _ _ h80 hout]

/-! ## The state after reset -/

/-- With the default font, a zero fill and no image every byte is what an unlisted address reads as (R230, R232). -/
theorem constructByte_default (a : Nat) : constructByte Config.font (fun _ => 0) [] a = Memory.unlisted a := by
  unfold constructByte Memory.unlisted
  split
  · rfl
  · exact ite_self _

/-- Where each byte is what its address reads as unlisted, nothing is listed. -/
theorem ofBytes_of_unlisted {f : Nat → Byte} (h : ∀ a, f a = Memory.unlisted a) : Memory.ofBytes f = [] := by
  unfold Memory.ofBytes
  induction List.range 4096 with
  | nil => rfl
  | cons a as ih => rw [List.foldr_cons, ih, Memory.consCell, if_pos (h a)]

/-- Settles O57: reset lists no byte, and neither does CONSTRUCT with the default font, a zero fill and no image. -/
theorem resetState : Obligations.ResetState := by
  refine ⟨reset_reg, rfl, rfl, rfl, by decide, rfl, rfl, fun px py _ _ => reset_cell px py, reset_pressed, rfl, rfl,
    by decide, fun a ha => ?_, fun a ha => ?_, ?_⟩
  · exact if_neg (by omega)
  · exact if_pos ha
  · rw [construct_fits _ _ (by decide), constructed, ofBytes_of_unlisted constructByte_default]
    rfl

/-! ## The idle loop -/

/-- A jump to itself leaves the state it started from (R112). -/
theorem step_idleLoop {s : State} (h : IdleLoop s) : step s = next s := by
  obtain ⟨hf, op, nnn, hfe, hd, rfl⟩ := h
  have hpc : zextAddr s.pc.toNat = s.pc := by rw [zextAddr, BitVec.ofNat_toNat, BitVec.setWidth_eq]
  rw [step_decoded hf hfe hd, exec_jp, hpc]
  rfl

/-- Settles O59, by induction on the number of STEPs. -/
theorem idleLoopIsAFixpoint : Obligations.IdleLoopIsAFixpoint := by
  intro s n h
  induction n with
  | zero => rfl
  | succ n ih =>
    rw [List.replicate_succ, transactAll, transact, step_idleLoop h]
    exact ih

end Sys2Proof
